-- ==== Sys2Proof/Word.lean ====
section
/-! DEFINITION. The word types of packet_framer (00_scope.md R8, R12) and the plainest arithmetic on naturals that its
rules use. Every value is unsigned; bit 0 is the least significant bit. -/

namespace Sys2Proof

/-- One byte of a frame, of the input buffer, or of a command field. -/
abbrev Byte := BitVec 8

/-- A 16-bit value: a sequence id, or the operand of SWAP16 (R8). -/
abbrev Half := BitVec 16

/-- A 32-bit command word, operand word or result word (10_state.md R32, R34). -/
abbrev Word := BitVec 32

/-- The two byte orders of 00_scope.md R9 and 10_state.md R26. -/
inductive Endian where
  | little
  | big
  deriving DecidableEq, Repr

/-- `ceil_div(a, b)` of 00_scope.md R12. -/
def ceilDiv (a b : Nat) : Nat := (a + b - 1) / b

end Sys2Proof
end

