-- ==== Sys2Proof/Syntax.lean ====
section
/-! DEFINITION. The commands of PFCMD version 1 (00_scope.md R3, 30_encoding.md R62), one constructor per row of
spec/opcode_table.json. -/

namespace Sys2Proof

/-- A complete command: its operand fields and, for ENC, the data bytes that came with it on data_in (30_encoding.md
R62 to R71). Every operand is an immediate value (R71). -/
inductive Instr where
  /-- CFG, format C (R64): the software id and the wire endianness. -/
  | cfg (swid : Byte) (we : Endian)
  /-- ENC, format E (R65): the flags reboot, verify and test, the operand LEN, and the buffer. -/
  | enc (r v t : Bool) (len : Word) (buf : List Byte)
  /-- STAT, format N (R63). -/
  | stat
  /-- HOSTEND, format N (R63). -/
  | hostend
  /-- SWAP16, format H (R66). -/
  | swap16 (x : Half)
  /-- SWAP32, format W (R67). -/
  | swap32 (x : Word)
  /-- COMP16, format B2 (R68). -/
  | comp16 (b0 b1 : Byte) (swap : Bool)
  /-- COMP32, format B4 (R69). -/
  | comp32 (b0 b1 b2 b3 : Byte) (swap : Bool)
  /-- RDBIT, format RB (R70): POS is three bits wide. -/
  | rdbit (b : Byte) (pos : BitVec 3)
  deriving DecidableEq, Repr

end Sys2Proof
end

