-- ==== Sys2Proof/WellFormed.lean ====
section
/-! DEFINITION. Which terms of `Instr` stand for a complete command. -/

namespace Sys2Proof

/-- A term stands for a complete command when ENC carries exactly LEN data bytes (10_state.md R34, 30_encoding.md R65).
Every other operand has the width of its field by its type (R71), so nothing else can be ill-formed. -/
def wellFormed : Instr → Bool
  | .cfg _ _ => true
  | .enc _ _ _ len buf => buf.length == len.toNat
  | .stat => true
  | .hostend => true
  | .swap16 _ => true
  | .swap32 _ => true
  | .comp16 _ _ _ => true
  | .comp32 _ _ _ _ _ => true
  | .rdbit _ _ => true

end Sys2Proof
end

