-- ==== Sys2Proof/Decode.lean ====
section
/-! DEFINITION. Reading a command from the two input channels (30_encoding.md section 1), total on any words and bytes,
and after it the encoder, written from the same formats. -/

namespace Sys2Proof

/-- The assigned opcodes of 30_encoding.md R62. -/
inductive Opcode where
  | cfg
  | enc
  | stat
  | hostend
  | swap16
  | swap32
  | comp16
  | comp32
  | rdbit
  deriving DecidableEq, Repr

/-- Why a complete command is illegal: the two cases of 30_encoding.md R72. -/
inductive Reject where
  /-- R72 (a): OPC is 0x00, 0x04 to 0x0F, or 0x16 to 0xFF. -/
  | unassignedOpcode
  /-- R72 (b): OPC is assigned and a reserved bit of word 0 is not 0. -/
  | reservedBits
  deriving DecidableEq, Repr

/-- What stands at the head of the input channels; `ws` and `ds` are the words and bytes behind the command. -/
inductive Reading where
  /-- No command, or one whose words or data bytes have not all arrived (10_state.md R34). -/
  | incomplete
  /-- A complete illegal command, its full length consumed (30_encoding.md R72). -/
  | illegal (why : Reject) (ws : List Word) (ds : List Byte)
  /-- A complete legal command. -/
  | command (i : Instr) (ws : List Word) (ds : List Byte)
  deriving DecidableEq, Repr

/-- OPC = w0[31:24] (R60). -/
def opcField (w0 : Word) : Byte := w0.extractLsb' 24 8

/-- The opcode numbers of R62. -/
def opcodeNumber : Opcode → Byte
  | .cfg => 0x01
  | .enc => 0x02
  | .stat => 0x03
  | .hostend => 0x10
  | .swap16 => 0x11
  | .swap32 => 0x12
  | .comp16 => 0x13
  | .comp32 => 0x14
  | .rdbit => 0x15

/-- The opcode map of R62 read from number to command; every other number is unassigned. -/
def opcodeOf (n : Byte) : Option Opcode :=
  if n = 0x01 then some .cfg
  else if n = 0x02 then some .enc
  else if n = 0x03 then some .stat
  else if n = 0x10 then some .hostend
  else if n = 0x11 then some .swap16
  else if n = 0x12 then some .swap32
  else if n = 0x13 then some .comp16
  else if n = 0x14 then some .comp32
  else if n = 0x15 then some .rdbit
  else none

/-- How many words a command has, from its OPC alone (R61). -/
def commandWords (opc : Byte) : Nat :=
  if opc = 0x02 then 2 else if opc = 0x12 then 2 else if opc = 0x14 then 2 else 1

/-- How many data bytes follow on data_in: LEN = w1 for ENC, none for any other OPC (R61). -/
def commandBytes (opc : Byte) (w1 : Word) : Nat :=
  if opc = 0x02 then w1.toNat else 0

/-- Whether the reserved bits of word 0 are all 0, as each command's format places them (R63 to R70). -/
def reservedClear (op : Opcode) (w0 : Word) : Bool :=
  match op with
  | .cfg => w0.extractLsb' 9 15 == 0
  | .enc => w0.extractLsb' 3 21 == 0
  | .stat => w0.extractLsb' 0 24 == 0
  | .hostend => w0.extractLsb' 0 24 == 0
  | .swap16 => w0.extractLsb' 16 8 == 0
  | .swap32 => w0.extractLsb' 0 24 == 0
  | .comp16 => w0.extractLsb' 17 7 == 0
  | .comp32 => w0.extractLsb' 1 23 == 0
  | .rdbit => w0.extractLsb' 11 13 == 0

/-- The numeric encoding of an endianness, Little = 0 and Big = 1 (R64, 10_state.md R26). -/
def endianBit : Endian → BitVec 1
  | .little => 0
  | .big => 1

/-- The endianness a bit encodes (R64). -/
def bitEndian (b : Bool) : Endian := if b then .big else .little

/-- The operands of a legal command, field by field (R63 to R71). -/
def operandsOf (op : Opcode) (w0 w1 : Word) (buf : List Byte) : Instr :=
  match op with
  | .cfg => .cfg (w0.extractLsb' 0 8) (bitEndian (w0.getLsbD 8))
  | .enc => .enc (w0.getLsbD 0) (w0.getLsbD 1) (w0.getLsbD 2) w1 buf
  | .stat => .stat
  | .hostend => .hostend
  | .swap16 => .swap16 (w0.extractLsb' 0 16)
  | .swap32 => .swap32 w1
  | .comp16 => .comp16 (w0.extractLsb' 0 8) (w0.extractLsb' 8 8) (w0.getLsbD 16)
  | .comp32 => .comp32 (w1.extractLsb' 0 8) (w1.extractLsb' 8 8) (w1.extractLsb' 16 8) (w1.extractLsb' 24 8) (w0.getLsbD 0)
  | .rdbit => .rdbit (w0.extractLsb' 0 8) (w0.extractLsb' 8 3)

/-- A complete command's words and data bytes, judged by R72: the instruction, or why it is illegal. -/
def decodeCommand (w0 w1 : Word) (buf : List Byte) : Except Reject Instr :=
  match opcodeOf (opcField w0) with
  | none => .error .unassignedOpcode
  | some op => if reservedClear op w0 then .ok (operandsOf op w0 w1 buf) else .error .reservedBits

/-- The reading of a complete command, with the words and bytes behind it. -/
def judge (w0 w1 : Word) (buf : List Byte) (ws : List Word) (ds : List Byte) : Reading :=
  match decodeCommand w0 w1 buf with
  | .ok i => .command i ws ds
  | .error why => .illegal why ws ds

/-- Reads the command at the head of the channels: its words by its OPC alone (R61), then for ENC its LEN bytes (R65).
It is incomplete while any of them has not arrived (10_state.md R34). -/
def readCommand (ws : List Word) (ds : List Byte) : Reading :=
  match ws with
  | [] => .incomplete
  | w0 :: ws1 =>
    if commandWords (opcField w0) = 2 then
      match ws1 with
      | [] => .incomplete
      | w1 :: ws2 =>
        if ds.length < commandBytes (opcField w0) w1 then .incomplete
        else judge w0 w1 (ds.take (commandBytes (opcField w0) w1)) ws2 (ds.drop (commandBytes (opcField w0) w1))
    else judge w0 0 [] ws1 ds

/-- What a reset leaves in the channels (70_reset_and_hazards.md R190, R191): a command whose words or data bytes have
only partly arrived is discarded, a complete one is not. Bytes on data_in that complete no command go with it (log
entries 7 and 9). -/
def discardPartial : List Word → List Byte → List Word × List Byte
  | [], _ => ([], [])
  | w0 :: ws1, ds =>
    if commandWords (opcField w0) = 2 then
      match ws1 with
      | [] => ([], [])
      | w1 :: ws2 =>
        if ds.length < commandBytes (opcField w0) w1 then discardPartial ws2 []
        else
          let kept := discardPartial ws2 (ds.drop (commandBytes (opcField w0) w1))
          (w0 :: w1 :: kept.1, ds.take (commandBytes (opcField w0) w1) ++ kept.2)
    else
      let kept := discardPartial ws1 ds
      (w0 :: kept.1, kept.2)

/-- The words of an instruction, each format's pattern of R63 to R70 from its high bits to its low bits. -/
def encodeWords : Instr → List Word
  | .cfg swid we => [0x01#8 ++ 0#15 ++ endianBit we ++ swid]
  | .enc r v t len _ => [0x02#8 ++ 0#21 ++ BitVec.ofBool t ++ BitVec.ofBool v ++ BitVec.ofBool r, len]
  | .stat => [0x03#8 ++ 0#24]
  | .hostend => [0x10#8 ++ 0#24]
  | .swap16 x => [0x11#8 ++ 0#8 ++ x]
  | .swap32 x => [0x12#8 ++ 0#24, x]
  | .comp16 b0 b1 s => [0x13#8 ++ 0#7 ++ BitVec.ofBool s ++ b1 ++ b0]
  | .comp32 b0 b1 b2 b3 s => [0x14#8 ++ 0#23 ++ BitVec.ofBool s, b3 ++ b2 ++ b1 ++ b0]
  | .rdbit b pos => [0x15#8 ++ 0#13 ++ pos ++ b]

/-- The data bytes of an instruction: ENC's buffer, in order (R65). -/
def encodeData : Instr → List Byte
  | .cfg _ _ => []
  | .enc _ _ _ _ buf => buf
  | .stat => []
  | .hostend => []
  | .swap16 _ => []
  | .swap32 _ => []
  | .comp16 _ _ _ => []
  | .comp32 _ _ _ _ _ => []
  | .rdbit _ _ => []

/-- What an instruction puts on the two input channels. -/
def encode (i : Instr) : List Word × List Byte := (encodeWords i, encodeData i)

/-- The words of the command whose bits are `w`, numbered as spec/opcode_table.json numbers them (word 0 is bits 31 to 0,
word 1 bits 63 to 32) and 0 from bit `nbits` up. -/
def tableWords (nbits w : Nat) : List Word :=
  let v := w % 2 ^ nbits
  if commandWords (opcField (BitVec.ofNat 32 v)) = 2 then [BitVec.ofNat 32 v, BitVec.ofNat 32 (v >>> 32)]
  else [BitVec.ofNat 32 v]

/-- The data bytes that complete that command: as many zeros as its OPC and word 1 ask for. -/
def tableData (nbits w : Nat) : List Byte :=
  let v := w % 2 ^ nbits
  List.replicate (commandBytes (opcField (BitVec.ofNat 32 v)) (BitVec.ofNat 32 (v >>> 32))) 0

/-- The instruction the decoder reads from the command whose bits are `w` (the fixed name of the interface). -/
def decodeTableWord (nbits w : Nat) : Option Instr :=
  match readCommand (tableWords nbits w) (tableData nbits w) with
  | .command i _ _ => some i
  | .illegal _ _ _ => none
  | .incomplete => none

end Sys2Proof
end

