-- ==== Sys2Proof/Config.lean ====
section
/-! DEFINITION. The constants that 00_scope.md R8 fixes for every packet_framer, and the value of the instance parameter
HOST_ENDIAN (00_scope.md R9) at which the fixed name `State.reset` is taken. -/

namespace Sys2Proof.Config

/-- MAX_CHUNK, the largest Data payload (R8). -/
def maxChunk : Nat := 59

/-- packetType of a Start frame (R8, 30_encoding.md R76). -/
def typeStart : Byte := 0x01

/-- packetType of a Data frame (R8, 30_encoding.md R76). -/
def typeData : Byte := 0x02

/-- packetType of a Stop frame (R8, 30_encoding.md R76). -/
def typeStop : Byte := 0x03

/-- HOST_ENDIAN of the instance whose reset state is `State.reset`. DESIGN CHOICE, unsafe (log entry 2): the spec leaves
the parameter open and takes Little for every vector that does not say otherwise (R9). `State.resetFor` takes either
value, and no other definition of the model reads this one. -/
def hostEndian : Endian := .little

end Sys2Proof.Config
end

