-- ==== Sys2Proof/Machine/State.lean ====
section
/-! DEFINITION. The state of one packet_framer (10_state.md R21, R32 to R35), its reset (R190), and the reasons for which a
step can stop. -/

namespace Sys2Proof.Machine

/-- A frame is a non-empty byte list (10_state.md R33). Its end-of-frame mark is the end of the list (log entry 13). -/
abbrev Frame := List Byte

/-- The status of a response (60_exceptions.md R170). -/
inductive Status where
  | ok
  | illegalCommand
  | notConfigured
  | invariantFault
  | faulted
  deriving DecidableEq, Repr

/-- The response of a command (10_state.md R32). -/
structure Response where
  status : Status
  result : Word
  deriving DecidableEq, Repr

/-- One unit on the block's outputs: the whole frame list of a successful ENC (10_state.md R33), or a response (R32). -/
inductive Output where
  | train (frames : List Frame)
  | response (r : Response)
  deriving DecidableEq, Repr

/-- Everything a step reads or writes. The first eight fields are the whole architectural state (R21); the rest are the
block's inputs and outputs (R32 to R35, 70_reset_and_hazards.md R199). -/
structure State where
  /-- SEQ, the next sequence id to consume (R24). -/
  seq : Half
  /-- SWID, the software id of every frame header (R25). -/
  swid : Byte
  /-- WE, the wire endianness (R26). -/
  we : Endian
  /-- SWAP, the latched swap decision (R27). -/
  swap : Bool
  /-- CFGD, set once a CFG has executed since reset (R28). -/
  cfgd : Bool
  /-- ERR_ILL, sticky (R29). -/
  errIll : Bool
  /-- ERR_NCFG, sticky (R29). -/
  errNcfg : Bool
  /-- ERR_INV, sticky; set, it is the FAULTED state (R29, R30). -/
  errInv : Bool
  /-- The input HOST_ENDIAN, a constant tie-off that no step writes (00_scope.md R9; log entry 1). -/
  hostEndian : Endian
  /-- cmd_in: the command words that have arrived and are not consumed, oldest first (R34; log entry 3). -/
  cmdIn : List Word
  /-- data_in: the data bytes that have arrived and are not consumed, oldest first (R34; log entry 3). -/
  dataIn : List Byte
  /-- rst: a reset has been asserted and not yet taken (R35; log entry 7). -/
  rst : Bool
  /-- Whether the host accepts output now (R199; log entries 6 and 14). -/
  ready : Bool
  /-- Output presented to the host and not yet accepted, oldest first (R33, R199; log entry 6). -/
  port : List Output
  /-- Output the host has accepted, oldest first: the model's record of the observation of R201 (log entry 10). -/
  taken : List Output
  deriving DecidableEq, Repr

/-- The machine has no fault that stops it: every error of 60_exceptions.md R170 is a response, so a next state, and a
hold (R198, R199) is a state that waits (log entries 5 and 12). Nothing raises a fault, so there is no constructor. -/
inductive Fault where
  deriving DecidableEq, Repr

/-- Reasons for which the model gives no meaning. -/
inductive Refusal where
  /-- Raised by an arm of `exec` whose instruction has no meaning yet; safe. No arm of this model raises it. -/
  | notModelled (mnemonic : String)
  deriving DecidableEq, Repr

/-- The block right after reset, for an instance whose HOST_ENDIAN is `host` (R21, 70_reset_and_hazards.md R190): the
registers at their reset values, nothing on any channel, and the host accepting output (log entry 14). -/
def State.resetFor (host : Endian) : State where
  seq := 0
  swid := 0
  we := .little
  swap := decide (host ≠ .little)
  cfgd := false
  errIll := false
  errNcfg := false
  errInv := false
  hostEndian := host
  cmdIn := []
  dataIn := []
  rst := false
  ready := true
  port := []
  taken := []

/-- The reset state of the instance whose parameter is `Config.hostEndian` (log entry 2). -/
def State.reset : State := State.resetFor Config.hostEndian

end Sys2Proof.Machine
end

