-- ==== Sys2Proof/Machine/Operands.lean ====
section
/-! DEFINITION. The endianness_encoder (40_byte_order.md): the byte-order functions on 16-bit and 32-bit values, the field
encoders of the wire format, and the single-bit read. -/

namespace Sys2Proof.Machine

/-- `byte_k(x)` is `x[8k+7:8k]` (00_scope.md R12). -/
def byteOf {n : Nat} (k : Nat) (x : BitVec n) : Byte := x.extractLsb' (8 * k) 8

/-- `E16(x, s)`: the two wire components of a 16-bit value (R100). -/
def e16 (x : Half) (s : Bool) : List Byte :=
  if s then [byteOf 1 x, byteOf 0 x] else [byteOf 0 x, byteOf 1 x]

/-- `E32(x, s)`: the four wire components of a 32-bit value (R101). -/
def e32 (x : Word) (s : Bool) : List Byte :=
  if s then [byteOf 3 x, byteOf 2 x, byteOf 1 x, byteOf 0 x]
  else [byteOf 0 x, byteOf 1 x, byteOf 2 x, byteOf 3 x]

/-- `swap16(x) = {x[7:0], x[15:8]}` (R105). -/
def swap16 (x : Half) : Half := byteOf 0 x ++ byteOf 1 x

/-- `swap32(x) = {x[7:0], x[15:8], x[23:16], x[31:24]}` (R106). -/
def swap32 (x : Word) : Word := byteOf 0 x ++ byteOf 1 x ++ byteOf 2 x ++ byteOf 3 x

/-- `compose16(b0, b1, s)`: the pair with b0 low, swapped when s is set (R107). -/
def compose16 (b0 b1 : Byte) (s : Bool) : Half :=
  let v : Half := b1 ++ b0
  if s then swap16 v else v

/-- `compose32(b0, b1, b2, b3, s)`: the quad with b0 low, swapped when s is set (R108). -/
def compose32 (b0 b1 b2 b3 : Byte) (s : Bool) : Word :=
  let v : Word := b3 ++ b2 ++ b1 ++ b0
  if s then swap32 v else v

/-- `b[pos]`, position 0 the least significant bit (R109). -/
def readBit (b : Byte) (pos : BitVec 3) : Bool := b.getLsbD pos.toNat

/-- A bit, zero-extended into a result word (10_state.md R32). -/
def bitResult (b : Bool) : Word := if b then 1 else 0

/-- A 16-bit value, zero-extended into a result word (10_state.md R32). -/
def halfResult (x : Half) : Word := x.setWidth 32

/-- The encoding of an endianness in a result word, 0 for Little and 1 for Big (R104). -/
def endianResult (e : Endian) : Word := (endianBit e).setWidth 32

end Sys2Proof.Machine
end

