-- ==== Sys2Proof/Machine/Flags.lean ====
section
/-! DEFINITION. The flag-like bits: the swap decision, the status codes, the sticky error bits, the status word, and the
packing of the Stop frame's flags byte. The block has no condition codes (10_state.md R37). -/

namespace Sys2Proof.Machine

/-- `HOST_ENDIAN != WE` (41_generator_config.md R121). -/
def swapDecision (host we : Endian) : Bool := decide (host ≠ we)

/-- The 8-bit status codes of 60_exceptions.md R170. -/
def statusCode : Status → Byte
  | .ok => 0x00
  | .illegalCommand => 0x01
  | .notConfigured => 0x02
  | .invariantFault => 0x03
  | .faulted => 0x04

/-- The errors that a command can raise (60_exceptions.md R171 to R173). -/
inductive ErrorCause where
  | illegalCommand
  | notConfigured
  | invariantFault
  deriving DecidableEq, Repr

/-- The status that an error reports (R170). -/
def causeStatus : ErrorCause → Status
  | .illegalCommand => .illegalCommand
  | .notConfigured => .notConfigured
  | .invariantFault => .invariantFault

/-- An error sets its own sticky bit and no other register (R170, R176). -/
def setSticky (e : ErrorCause) (s : State) : State :=
  match e with
  | .illegalCommand => { s with errIll := true }
  | .notConfigured => { s with errNcfg := true }
  | .invariantFault => { s with errInv := true }

/-- The status word of STAT (10_state.md R38), from bit 31 down to bit 0. -/
def statusWord (s : State) : Word :=
  0#1 ++ BitVec.ofBool s.errInv ++ BitVec.ofBool s.errNcfg ++ BitVec.ofBool s.errIll ++ BitVec.ofBool s.cfgd
    ++ endianBit s.hostEndian ++ BitVec.ofBool s.swap ++ endianBit s.we ++ s.swid ++ s.seq

/-- The flags byte of a Stop frame, `zext_8({T, V, R})` (42_encode.md R144, 30_encoding.md R80). -/
def packFlags (r v t : Bool) : Byte :=
  (BitVec.ofBool t ++ BitVec.ofBool v ++ BitVec.ofBool r).setWidth 8

end Sys2Proof.Machine
end

