-- ==== Sys2Proof/Machine/Frames.lean ====
section
/-! DEFINITION. The wire formats of the three frame kinds (30_encoding.md section 2). -/

namespace Sys2Proof.Machine

/-- `Header(s, type) = [SWID] ++ E16(s, SWAP) ++ [type]` (R75). -/
def header (swid : Byte) (swap : Bool) (id : Half) (type : Byte) : Frame :=
  [swid] ++ e16 id swap ++ [type]

/-- `StartFrame(s, L) = Header(s, 0x01) ++ E32(L, SWAP)` (R77). -/
def startFrame (swid : Byte) (swap : Bool) (id : Half) (len : Word) : Frame :=
  header swid swap id Config.typeStart ++ e32 len swap

/-- `DataFrame(s, n, p) = Header(s, 0x02) ++ [n] ++ p` (R78). -/
def dataFrame (swid : Byte) (swap : Bool) (id : Half) (n : Nat) (p : List Byte) : Frame :=
  header swid swap id Config.typeData ++ [BitVec.ofNat 8 n] ++ p

/-- `StopFrame(s, F) = Header(s, 0x03) ++ [F]` (R79). -/
def stopFrame (swid : Byte) (swap : Bool) (id : Half) (flags : Byte) : Frame :=
  header swid swap id Config.typeStop ++ [flags]

/-- The bytes of a frame as the frame output channel carries them, the last with the end-of-frame mark (10_state.md
R33). -/
def markFrame : Frame → List (Byte × Bool)
  | [] => []
  | [b] => [(b, true)]
  | b :: c :: rest => (b, false) :: markFrame (c :: rest)

/-- The length of a frame from its own bytes (R81): byte 3 gives the kind and, for Data, byte 4 the payload size. -/
def frameLength (f : List Byte) : Option Nat :=
  match f with
  | _ :: _ :: _ :: k :: rest =>
    if k = Config.typeStart then some 8
    else if k = Config.typeData then rest.head?.map (fun n => 5 + n.toNat)
    else if k = Config.typeStop then some 5
    else none
  | _ => none

end Sys2Proof.Machine
end

