-- ==== Sys2Proof/Machine/Ops.lean ====
section
/-! DEFINITION. The shared operations of the commands: consuming a sequence id, reading the input buffer, answering,
raising an error, refusing while FAULTED, taking a reset, and the host's acceptance of output. -/

namespace Sys2Proof.Machine

/-- The outcome of a step or of an instruction. -/
abbrev Result := Host.Outcome State Fault Refusal

/-- `consume()` (41_generator_config.md R122): the id a frame carries, and the running counter after it, modulo 2^16. -/
def consume (c : Half) : Half × Half := (c, c + 1)

/-- `MemRead(a, n)` on an input buffer, defined only within it (20_memory.md R41). -/
def memRead (buf : List Byte) (a n : Nat) : Option (List Byte) :=
  if a + n ≤ buf.length then some ((buf.drop a).take n) else none

/-- Presents output to the host, behind what it has not accepted yet (10_state.md R33, 20_memory.md R50). -/
def present (out : List Output) (s : State) : State := { s with port := s.port ++ out }

/-- Ends a command with its one response (10_state.md R32). -/
def respond (status : Status) (result : Word) (s : State) : State := present [.response ⟨status, result⟩] s

/-- `return v` (00_scope.md R13): status OK and result `v`. -/
def respondOk (v : Word) (s : State) : State := respond .ok v s

/-- Taking an error, the block's only exception (60_exceptions.md R170 to R173, R176): the sticky bit of the cause is set
and the response carries its status and result 0. No state is saved and nothing is vectored (R178), and there is no
return from it (R179). -/
def raise (e : ErrorCause) (s : State) : State := respond (causeStatus e) 0 (setSticky e s)

/-- The refusal of a command by a FAULTED block: a response and nothing else (R174). -/
def refuseFaulted (s : State) : State := respond .faulted 0 s

/-- Runs `t` unless the block is FAULTED (10_state.md R30; first in the priority of 60_exceptions.md R175). -/
def unlessFaulted (s t : State) : State := if s.errInv then refuseFaulted s else t

/-- A complete illegal command, its words and bytes already consumed (30_encoding.md R72, 60_exceptions.md R171, R174). -/
def raiseIllegal (s : State) : State := unlessFaulted s (raise .illegalCommand s)

/-- Writes the configuration and starts a session (41_generator_config.md R120); SWAP is latched as WE is written
(R121). -/
def configure (swid : Byte) (we : Endian) (s : State) : State :=
  { s with swid := swid, we := we, swap := swapDecision s.hostEndian we, seq := 0, cfgd := true }

/-- The host's acceptance of all presented output, when it accepts output now (70_reset_and_hazards.md R199). -/
def accept (s : State) : State :=
  if s.ready then { s with taken := s.taken ++ s.port, port := [] } else s

/-- Taking a reset (70_reset_and_hazards.md R190 to R192): every register to its reset value, HOST_ENDIAN unchanged, a
partly arrived command discarded. Output of the command before it goes to the host (R191; log entry 8). -/
def takeReset (s : State) : State :=
  { s with
    seq := 0
    swid := 0
    we := .little
    swap := swapDecision s.hostEndian .little
    cfgd := false
    errIll := false
    errNcfg := false
    errInv := false
    cmdIn := (discardPartial s.cmdIn s.dataIn).1
    dataIn := (discardPartial s.cmdIn s.dataIn).2
    rst := false
    taken := s.taken ++ s.port
    port := [] }

end Sys2Proof.Machine
end

