-- ==== Sys2Proof/Machine/Encode.lean ====
section
/-! DEFINITION. ENC: the packet_framer and the payload_chunker (42_encode.md). -/

namespace Sys2Proof.Machine

/-- The checks of an ENC that can fail (60_exceptions.md R173). The values name the failure; nothing records them. -/
inductive InvariantCause where
  /-- A chunk length outside 1..59 (42_encode.md R148). -/
  | chunk (n : Nat)
  /-- A frame count other than 2 + ceil_div(L, 59) (R149). -/
  | count (n : Nat)
  /-- A MemRead outside the buffer (20_memory.md R41). -/
  | read (a n : Nat)
  deriving DecidableEq, Repr

/-- The loop of step 2 in R140, with the source's two counters `off` and `rem` (R153): the Data frames from the running
counter `c` on, and the counter after them. Each turn lowers `rem`, so as many turns as bytes remain are enough; `fuel`
bounds them. -/
def dataFrames (swid : Byte) (swap : Bool) (buf : List Byte) :
    (fuel : Nat) → (c : Half) → (off rem : Nat) → Except InvariantCause (List Frame × Half)
  | 0, c, _, _ => .ok ([], c)
  | fuel + 1, c, off, rem =>
    if rem = 0 then .ok ([], c)
    else
      let n := min Config.maxChunk rem
      if 1 ≤ n ∧ n ≤ Config.maxChunk then
        match memRead buf off n with
        | none => .error (.read off n)
        | some p =>
          match dataFrames swid swap buf fuel (consume c).2 (off + Config.maxChunk) (rem - n) with
          | .error e => .error e
          | .ok (frames, cEnd) => .ok (dataFrame swid swap (consume c).1 n p :: frames, cEnd)
      else .error (.chunk n)

/-- The packet train of R140, steps 1 to 3, and the counter after it; the frame count is checked at the end (R149). -/
def encodeTrain (swid : Byte) (swap : Bool) (seq : Half) (flags : Byte) (len : Word) (buf : List Byte) :
    Except InvariantCause (List Frame × Half) :=
  match dataFrames swid swap buf len.toNat (consume seq).2 0 len.toNat with
  | .error e => .error e
  | .ok (frames, c) =>
    let train := startFrame swid swap (consume seq).1 len :: frames ++ [stopFrame swid swap (consume c).1 flags]
    if train.length = 2 + ceilDiv len.toNat Config.maxChunk then .ok (train, (consume c).2)
    else .error (.count train.length)

/-- A successful ENC delivers its whole train and then its response, the number of frames (R150, R151), and writes back
the running counter. -/
def deliverTrain (train : List Frame) (c : Half) (s : State) : State :=
  respondOk (BitVec.ofNat 32 train.length) (present [.train train] { s with seq := c })

/-- ENC (R140), after the FAULTED check: NotConfigured, then the train, or InvariantFault with nothing delivered. -/
def encodeBuffer (r v t : Bool) (len : Word) (buf : List Byte) (s : State) : State :=
  if s.cfgd then
    match encodeTrain s.swid s.swap s.seq (packFlags r v t) len buf with
    | .ok (train, c) => deliverTrain train c s
    | .error _ => raise .invariantFault s
  else raise .notConfigured s

/-- ENC (R140). -/
def execEnc (r v t : Bool) (len : Word) (buf : List Byte) (s : State) : Result :=
  .next (unlessFaulted s (encodeBuffer r v t len buf s))

end Sys2Proof.Machine
end

