-- ==== Sys2Proof/Machine/Session.lean ====
section
/-! DEFINITION. The configuration and status commands (41_generator_config.md). -/

namespace Sys2Proof.Machine

/-- CFG (R120). -/
def execCfg (swid : Byte) (we : Endian) (s : State) : Result :=
  .next (unlessFaulted s (respondOk 0 (configure swid we s)))

/-- STAT (R124): the one command that a FAULTED block executes (60_exceptions.md R174). -/
def execStat (s : State) : Result := .next (respondOk (statusWord s) s)

end Sys2Proof.Machine
end

