-- ==== Sys2Proof/Machine/Utility.lean ====
section
/-! DEFINITION. The six byte-order commands (40_byte_order.md section 2). None needs CFGD, none writes a register, and a
FAULTED block refuses each (60_exceptions.md R174). -/

namespace Sys2Proof.Machine

/-- HOSTEND (R104). -/
def execHostend (s : State) : Result :=
  .next (unlessFaulted s (respondOk (endianResult s.hostEndian) s))

/-- SWAP16 (R105). -/
def execSwap16 (x : Half) (s : State) : Result :=
  .next (unlessFaulted s (respondOk (halfResult (swap16 x)) s))

/-- SWAP32 (R106). -/
def execSwap32 (x : Word) (s : State) : Result :=
  .next (unlessFaulted s (respondOk (swap32 x) s))

/-- COMP16 (R107); `sw` is the command's own S bit, not SWAP. -/
def execComp16 (b0 b1 : Byte) (sw : Bool) (s : State) : Result :=
  .next (unlessFaulted s (respondOk (halfResult (compose16 b0 b1 sw)) s))

/-- COMP32 (R108); `sw` is the command's own S bit, not SWAP. -/
def execComp32 (b0 b1 b2 b3 : Byte) (sw : Bool) (s : State) : Result :=
  .next (unlessFaulted s (respondOk (compose32 b0 b1 b2 b3 sw) s))

/-- RDBIT (R109). -/
def execRdbit (b : Byte) (pos : BitVec 3) (s : State) : Result :=
  .next (unlessFaulted s (respondOk (bitResult (readBit b pos)) s))

end Sys2Proof.Machine
end

