-- ==== Sys2Proof/Machine/Dispatch.lean ====
section
/-! DEFINITION. What each instruction does: one arm per constructor of `Instr`. -/

namespace Sys2Proof.Machine

/-- The effect of a complete command (10_state.md R20), its words and data bytes already consumed. -/
def exec (i : Instr) (s : State) : Host.Outcome State Fault Refusal :=
  match i with
  | .cfg swid we => Sys2Proof.Machine.execCfg swid we s
  | .enc r v t len buf => Sys2Proof.Machine.execEnc r v t len buf s
  | .stat => Sys2Proof.Machine.execStat s
  | .hostend => Sys2Proof.Machine.execHostend s
  | .swap16 x => Sys2Proof.Machine.execSwap16 x s
  | .swap32 x => Sys2Proof.Machine.execSwap32 x s
  | .comp16 b0 b1 sw => Sys2Proof.Machine.execComp16 b0 b1 sw s
  | .comp32 b0 b1 b2 b3 sw => Sys2Proof.Machine.execComp32 b0 b1 b2 b3 sw s
  | .rdbit b pos => Sys2Proof.Machine.execRdbit b pos s

end Sys2Proof.Machine
end

