-- ==== Sys2Proof/Machine/Fetch.lean ====
section
/-! DEFINITION. How the framer takes a command from its inputs: a reset first, then output not yet accepted, then the
command at the head of the channels. `cycle` is the step, over the meaning of an instruction it is given. -/

namespace Sys2Proof.Machine

/-- The state whose channels hold what stands behind the command being executed (60_exceptions.md R176: exactly its own
words and bytes are consumed). -/
def consumeInput (ws : List Word) (ds : List Byte) (s : State) : State := { s with cmdIn := ws, dataIn := ds }

/-- The end of a command: the host accepts its output if it accepts output now (70_reset_and_hazards.md R199). -/
def settle : Result → Result
  | .next t => .next (accept t)
  | .fault e => .fault e
  | .refused e => .refused e

/-- One transition of the framer (10_state.md R20). A reset is taken between commands (70_reset_and_hazards.md R191; log
entry 7). Output not accepted holds the port (R199). An incomplete command is a hold (R198), as is an empty channel
(R193): the state stays as it is (log entry 5). Otherwise one complete command runs, legal or illegal. -/
def cycle (run : Instr → State → Result) (s : State) : Result :=
  if s.rst then .next (takeReset s)
  else if s.port ≠ [] then .next (accept s)
  else
    match readCommand s.cmdIn s.dataIn with
    | .incomplete => .next s
    | .illegal _ ws ds => settle (.next (raiseIllegal (consumeInput ws ds s)))
    | .command i ws ds => settle (run i (consumeInput ws ds s))

/-- The state whose next transition runs the command whose bits are `w` (numbered as spec/opcode_table.json numbers
them): its words and, for ENC, zero data bytes stand at the head of the channels, no reset is pending, and the host has
accepted all earlier output (log entry 11). -/
def placeCommand (s : State) (nbits w : Nat) : State :=
  { s with
    cmdIn := tableWords nbits w ++ s.cmdIn
    dataIn := tableData nbits w ++ s.dataIn
    rst := false
    taken := s.taken ++ s.port
    port := [] }

end Sys2Proof.Machine
end

