-- ==== Sys2Proof/Machine/Step.lean ====
section
/-! DEFINITION. The step of the machine, and where a command is placed for it. -/

namespace Sys2Proof.Machine

/-- One transition of the framer (10_state.md R20), with the meanings of `exec`. -/
def step (s : State) : Host.Outcome State Fault Refusal := cycle exec s

/-- `s` with a command placed where `step` takes its next one (the fixed name of the interface; log entry 11). -/
def State.withFetchWord (s : State) (nbits w : Nat) : State := placeCommand s nbits w

end Sys2Proof.Machine
end

