-- ==== Sys2Proof/Machine/HostPort.lean ====
section
/-! DEFINITION. What a host does between the framer's transitions (70_reset_and_hazards.md R200): it sends words and bytes,
issues whole commands, asserts rst, and accepts output or not. Several hosts act through the one port, one whole command
at a time (20_memory.md R52): the order of their commands is the order of these calls. -/

namespace Sys2Proof.Machine

/-- A command word arrives on cmd_in (10_state.md R34). -/
def sendWord (w : Word) (s : State) : State := { s with cmdIn := s.cmdIn ++ [w] }

/-- A data byte arrives on data_in (10_state.md R34). -/
def sendByte (b : Byte) (s : State) : State := { s with dataIn := s.dataIn ++ [b] }

/-- A host issues one whole command: its words and, for ENC, its LEN data bytes (R200). -/
def issue (i : Instr) (s : State) : State :=
  { s with cmdIn := s.cmdIn ++ encodeWords i, dataIn := s.dataIn ++ encodeData i }

/-- A host asserts rst (R190). -/
def assertReset (s : State) : State := { s with rst := true }

/-- The host starts or stops accepting output (R199). -/
def setReady (b : Bool) (s : State) : State := { s with ready := b }

/-- The responses among some outputs, in order (R201: "the list of responses"). -/
def responsesOf : List Output → List Response
  | [] => []
  | .train _ :: rest => responsesOf rest
  | .response r :: rest => r :: responsesOf rest

/-- The frame lists among some outputs, in order (R201: "the list of frame lists"). -/
def trainsOf : List Output → List (List Frame)
  | [] => []
  | .train frames :: rest => frames :: trainsOf rest
  | .response _ :: rest => trainsOf rest

end Sys2Proof.Machine
end

