-- ==== Sys2Proof/Machine/Run.lean ====
section
/-! DEFINITION. A run and its observation (70_reset_and_hazards.md R201): complete commands, legal or illegal, that hosts
issue from a start state; the steps that execute them while the host accepts output or does not; when the run has ended;
and what is observed of it. -/

namespace Sys2Proof.Machine

/-- A command as a host issues it: its words and, for ENC, its data bytes (10_state.md R34). It may be illegal. -/
structure Command where
  words : List Word
  bytes : List Byte
  deriving DecidableEq, Repr

/-- The architectural registers of 10_state.md R21. -/
structure Registers where
  seq : Half
  swid : Byte
  we : Endian
  swap : Bool
  cfgd : Bool
  errIll : Bool
  errNcfg : Bool
  errInv : Bool
  deriving DecidableEq, Repr

/-- What is observed of a run that has ended (R201). -/
structure Observation where
  responses : List Response
  trains : List (List Frame)
  registers : Registers
  deriving DecidableEq, Repr

/-- The registers of a state. -/
def registersOf (s : State) : Registers where
  seq := s.seq
  swid := s.swid
  we := s.we
  swap := s.swap
  cfgd := s.cfgd
  errIll := s.errIll
  errNcfg := s.errNcfg
  errInv := s.errInv

/-- The command that stands for an instruction. -/
def commandOf (i : Instr) : Command := ⟨encodeWords i, encodeData i⟩

/-- Whether a command is complete and nothing more (R34, R201): all its words and data bytes, none behind them. -/
def isComplete (c : Command) : Bool :=
  match readCommand c.words c.bytes with
  | .incomplete => false
  | .illegal _ ws ds => ws.isEmpty && ds.isEmpty
  | .command _ ws ds => ws.isEmpty && ds.isEmpty

/-- The hosts issue a list of commands, whole and in the order in which the port takes them (20_memory.md R50, R52). -/
def issueAll (cs : List Command) (s : State) : State :=
  { s with cmdIn := s.cmdIn ++ (cs.map Command.words).flatten, dataIn := s.dataIn ++ (cs.map Command.bytes).flatten }

/-- One step after another; each entry says whether the host accepts output in that step (R199). -/
def advance : List Bool → State → Result
  | [], s => .next s
  | ready :: rest, s =>
    match step (setReady ready s) with
    | .next t => advance rest t
    | .fault e => .fault e
    | .refused e => .refused e

/-- Whether a run has ended (R201): no command is left, complete or not, and all output is delivered. -/
def runEnded (s : State) : Bool := s.cmdIn.isEmpty && s.port.isEmpty

/-- The output of a run that started in `s` and stands in `t`: what the host has accepted beyond the output that `s` had
accepted or waiting. -/
def outputOfRun (s t : State) : List Output := t.taken.drop (s.taken.length + s.port.length)

/-- The observation of a run that started in `s` and ended in `t` (R201). -/
def observation (s t : State) : Observation where
  responses := responsesOf (outputOfRun s t)
  trains := trainsOf (outputOfRun s t)
  registers := registersOf t

/-- The run of the commands `cs` from `s`, over the steps that `accepts` gives: its observation if it has ended (R201). -/
def observeRun (accepts : List Bool) (cs : List Command) (s : State) : Option Observation :=
  match advance accepts (issueAll cs s) with
  | .next t => if runEnded t then some (observation s t) else none
  | .fault _ => none
  | .refused _ => none

end Sys2Proof.Machine
end

