-- ==== Sys2Proof/Safety.lean ====
section
/-! DEFINITION. What a safe run of packet_framer is, in the terms the claims use: the frames and the train that the spec
writes down in closed form, the constraints on what the block emits, and the invariants of its registers. Frames are
written here byte by byte from 30_encoding.md, not with the model's own frame functions. -/

namespace Sys2Proof.Machine

/-- The first four bytes of a frame (30_encoding.md R75), its sequence id low byte first or high byte first (40_byte_order.md
R100). -/
def specHeader (swid : Byte) (swap : Bool) (id : Half) (kind : Byte) : List Byte :=
  match swap with
  | false => [swid, id.extractLsb' 0 8, id.extractLsb' 8 8, kind]
  | true => [swid, id.extractLsb' 8 8, id.extractLsb' 0 8, kind]

/-- The eight bytes of a Start frame (30_encoding.md R77, 40_byte_order.md R101). -/
def specStart (swid : Byte) (swap : Bool) (id : Half) (len : Word) : List Byte :=
  specHeader swid swap id 1 ++
    match swap with
    | false => [len.extractLsb' 0 8, len.extractLsb' 8 8, len.extractLsb' 16 8, len.extractLsb' 24 8]
    | true => [len.extractLsb' 24 8, len.extractLsb' 16 8, len.extractLsb' 8 8, len.extractLsb' 0 8]

/-- The chunk `j` of a buffer (42_encode.md R142): 59 bytes from offset `59 j`, or what is left. -/
def specChunk (buf : List Byte) (j : Nat) : List Byte := (buf.drop (59 * j)).take 59

/-- The bytes of the Data frame of chunk `j` (30_encoding.md R78, 42_encode.md R143); `id` is the id it carries. -/
def specData (swid : Byte) (swap : Bool) (id : Half) (buf : List Byte) (j : Nat) : List Byte :=
  specHeader swid swap id 2 ++ BitVec.ofNat 8 (specChunk buf j).length :: specChunk buf j

/-- The value of the flags byte of a Stop frame, `R + 2 V + 4 T` (42_encode.md R144). -/
def specFlags (r v t : Bool) : Byte := BitVec.ofNat 8 (r.toNat + 2 * v.toNat + 4 * t.toNat)

/-- How many chunks a buffer of `n` bytes has (42_encode.md R142). -/
def specChunks (n : Nat) : Nat := ceilDiv n 59

/-- The whole packet train of R141 to R146 in closed form, of a buffer `buf` whose length is `len`, from the registers of
`s`: frame number `j`, from 0, carries the id SEQ + j modulo 2^16 (41_generator_config.md R126). -/
def specTrain (s : State) (r v t : Bool) (len : Word) (buf : List Byte) : List Frame :=
  specStart s.swid s.swap s.seq len ::
    ((List.range (specChunks buf.length)).map fun j =>
      specData s.swid s.swap (s.seq + BitVec.ofNat 16 (1 + j)) buf j) ++
    [specHeader s.swid s.swap (s.seq + BitVec.ofNat 16 (1 + specChunks buf.length)) 3 ++ [specFlags r v t]]

/-- Byte 3 of a frame, its packetType (30_encoding.md R75). -/
def frameKind (f : Frame) : Option Byte := f[3]?

/-- Bytes 1 and 2 of a frame, the components of its sequence id (30_encoding.md R75). -/
def frameId (f : Frame) : List Byte := (f.drop 1).take 2

/-- Bytes 5 onward of a Data frame, and nothing of any other frame (42_encode.md R147). -/
def framePayload (f : Frame) : List Byte := if frameKind f = some 2 then f.drop 5 else []

/-- The constraints of 30_encoding.md R82 on an emitted frame, and its length (R77 to R79). -/
def frameOk (f : Frame) : Bool :=
  match frameKind f, f[4]? with
  | some k, some b =>
    if k = 1 then f.length == 8
    else if k = 2 then decide (1 ≤ b.toNat) && decide (b.toNat ≤ 59) && f.length == 5 + b.toNat
    else if k = 3 then decide (b.toNat < 8) && f.length == 5
    else false
  | _, _ => false

/-- The shape of a train (42_encode.md R146), each frame within R82: one Start, then Data frames, then one Stop. -/
def trainOk (frames : List Frame) : Bool :=
  frames.all frameOk &&
    frames.map frameKind == some 1 :: List.replicate (frames.length - 2) (some 2) ++ [some 3]

/-- Output that a conforming block may present: a train of the right shape, or a response whose result is 0 if it reports
an error (60_exceptions.md R176). -/
def outputOk : Output → Bool
  | .train frames => trainOk frames
  | .response r => r.status == .ok || r.result == 0

/-- SWAP is HOST_ENDIAN != WE at all times (41_generator_config.md R121, D35). -/
abbrev SwapLatched (s : State) : Prop := s.swap = decide (s.hostEndian ≠ s.we)

/-- Until a CFG executes, SEQ, SWID and WE keep their reset values (10_state.md R24 to R26, R28). -/
abbrev UnconfiguredAtReset (s : State) : Prop := s.cfgd = false → s.seq = 0 ∧ s.swid = 0 ∧ s.we = .little

/-- What holds of a conforming block at all times: the two register rules above, not FAULTED (60_exceptions.md R173), and
conforming output (30_encoding.md R82). -/
abbrev Conforming (s : State) : Prop :=
  SwapLatched s ∧ UnconfiguredAtReset s ∧ s.errInv = false ∧ (∀ o ∈ s.taken ++ s.port, outputOk o = true)

/-- Whether an instruction is a CFG, which starts a session (41_generator_config.md R120). -/
def isCfg : Instr → Bool
  | .cfg _ _ => true
  | .enc _ _ _ _ _ => false
  | .stat => false
  | .hostend => false
  | .swap16 _ => false
  | .swap32 _ => false
  | .comp16 _ _ _ => false
  | .comp32 _ _ _ _ _ => false
  | .rdbit _ _ => false

/-- Whether an instruction is an ENC, the one command that emits frames (42_encode.md). -/
def isEnc : Instr → Bool
  | .cfg _ _ => false
  | .enc _ _ _ _ _ => true
  | .stat => false
  | .hostend => false
  | .swap16 _ => false
  | .swap32 _ => false
  | .comp16 _ _ _ => false
  | .comp32 _ _ _ _ _ => false
  | .rdbit _ _ => false

/-- What a reading leaves in the channels, if a whole command was read. -/
def leftBehind : Reading → Option (List Word × List Byte)
  | .incomplete => none
  | .illegal _ ws ds => some (ws, ds)
  | .command _ ws ds => some (ws, ds)

/-- The meanings of a list of instructions one after another, with the channels and the port left out; a run in the sense of
70_reset_and_hazards.md R201 is `observeRun`. -/
def runAll : List Instr → State → Result
  | [], s => .next s
  | i :: rest, s =>
    match exec i s with
    | .next t => runAll rest t
    | .fault e => .fault e
    | .refused e => .refused e

/-- All frames among some outputs, in emission order. -/
def framesOf (out : List Output) : List Frame := (trainsOf out).flatten

/-- A receiver's cut of a byte stream into frames by their own bytes (30_encoding.md R81); `fuel` bounds the frames. -/
def splitFrames : (fuel : Nat) → List Byte → Option (List Frame)
  | _, [] => some []
  | 0, _ :: _ => none
  | fuel + 1, b :: bs =>
    match frameLength (b :: bs) with
    | none => none
    | some n => (splitFrames fuel ((b :: bs).drop n)).map fun rest => (b :: bs).take n :: rest

/-- A receiver's cut of a marked byte stream into frames by the end-of-frame marks (10_state.md R33). -/
def splitMarked : List (Byte × Bool) → List Frame
  | [] => []
  | (b, true) :: rest => [b] :: splitMarked rest
  | (b, false) :: rest =>
    match splitMarked rest with
    | [] => [[b]]
    | f :: fs => (b :: f) :: fs

end Sys2Proof.Machine
end

