-- ==== Sys2Proof/Certificates/Slice0/Obligations.lean ====
section
/-! DEFINITION. The statements for the provers. Each docstring names the rules of spec/ that the statement formalises. -/

open Sys2Proof Sys2Proof.Machine

/-! ### Encoding -/

/-- 30_encoding.md R63 to R70, 10_state.md R34: reading what a complete command puts on the channels gives that command
back, every operand at every value its field admits, and leaves exactly what stands behind it. -/
def Obligations.ReadingAnEncodedCommandGivesItBack : Prop :=
  ∀ (i : Instr) (ws : List Word) (ds : List Byte), wellFormed i = true →
    readCommand (encodeWords i ++ ws) (encodeData i ++ ds) = .command i ws ds

/-- The other direction: a command is read only from its own words and data bytes, so each encoding has one meaning and
no operand bit is dropped. -/
def Obligations.EachEncodingHasOneMeaning : Prop :=
  ∀ (i : Instr) (ws ws' : List Word) (ds ds' : List Byte), readCommand ws ds = .command i ws' ds' →
    ws = encodeWords i ++ ws' ∧ ds = encodeData i ++ ds' ∧ wellFormed i = true

/-- Words written out from the formats of 30_encoding.md decode to the instruction they stand for. -/
def Obligations.WordsOfTheSpecDecode : Prop :=
  readCommand [0x010001FF] [] = .command (.cfg 0xFF .big) [] [] ∧
  readCommand [0x02000006, 0x00000002] [0xAA, 0xBB] = .command (.enc false true true 2 [0xAA, 0xBB]) [] [] ∧
  readCommand [0x03000000] [] = .command .stat [] [] ∧
  readCommand [0x10000000] [] = .command .hostend [] [] ∧
  readCommand [0x1100ABCD] [] = .command (.swap16 0xABCD) [] [] ∧
  readCommand [0x12000000, 0x12345678] [] = .command (.swap32 0x12345678) [] [] ∧
  readCommand [0x1301E803] [] = .command (.comp16 0x03 0xE8 true) [] [] ∧
  readCommand [0x14000001, 0xE8030000] [] = .command (.comp32 0x00 0x00 0x03 0xE8 true) [] [] ∧
  readCommand [0x15000780] [] = .command (.rdbit 0x80 7) [] []

/-- 30_encoding.md R61: the opcode alone fixes how many words and data bytes a command takes off the channels, whatever
else word 0 holds, and an unassigned opcode takes one word. -/
def Obligations.OpcodeAloneFixesLength : Prop :=
  ∀ (w0 : Word) (ws : List Word) (ds : List Byte),
    (w0.extractLsb' 24 8 = 0x02 → ∀ w1 : Word, w1.toNat ≤ ds.length →
      leftBehind (readCommand (w0 :: w1 :: ws) ds) = some (ws, ds.drop w1.toNat)) ∧
    (w0.extractLsb' 24 8 = 0x12 ∨ w0.extractLsb' 24 8 = 0x14 → ∀ w1 : Word,
      leftBehind (readCommand (w0 :: w1 :: ws) ds) = some (ws, ds)) ∧
    (w0.extractLsb' 24 8 ≠ 0x02 → w0.extractLsb' 24 8 ≠ 0x12 → w0.extractLsb' 24 8 ≠ 0x14 →
      leftBehind (readCommand (w0 :: ws) ds) = some (ws, ds))

/-- 30_encoding.md R72: which complete commands are illegal, that their full length is consumed, that word 1 has no
reserved bits, and that an illegal command raises IllegalCommand (in a block that is not FAULTED). -/
def Obligations.IllegalEncodings : Prop :=
  (∀ (w0 : Word) (ws : List Word) (ds : List Byte),
    (w0.extractLsb' 24 8 = 0 ∨ (0x04 ≤ (w0.extractLsb' 24 8).toNat ∧ (w0.extractLsb' 24 8).toNat ≤ 0x0F) ∨
        0x16 ≤ (w0.extractLsb' 24 8).toNat →
      readCommand (w0 :: ws) ds = .illegal .unassignedOpcode ws ds) ∧
    ((w0.extractLsb' 24 8 = 0x01 ∧ w0.extractLsb' 9 15 ≠ 0) ∨ (w0.extractLsb' 24 8 = 0x03 ∧ w0.extractLsb' 0 24 ≠ 0) ∨
        (w0.extractLsb' 24 8 = 0x10 ∧ w0.extractLsb' 0 24 ≠ 0) ∨ (w0.extractLsb' 24 8 = 0x11 ∧ w0.extractLsb' 16 8 ≠ 0) ∨
        (w0.extractLsb' 24 8 = 0x13 ∧ w0.extractLsb' 17 7 ≠ 0) ∨ (w0.extractLsb' 24 8 = 0x15 ∧ w0.extractLsb' 11 13 ≠ 0) →
      readCommand (w0 :: ws) ds = .illegal .reservedBits ws ds) ∧
    ((w0.extractLsb' 24 8 = 0x12 ∧ w0.extractLsb' 0 24 ≠ 0) ∨ (w0.extractLsb' 24 8 = 0x14 ∧ w0.extractLsb' 1 23 ≠ 0) →
      ∀ w1 : Word, readCommand (w0 :: w1 :: ws) ds = .illegal .reservedBits ws ds) ∧
    (w0.extractLsb' 24 8 = 0x02 ∧ w0.extractLsb' 3 21 ≠ 0 → ∀ w1 : Word, w1.toNat ≤ ds.length →
      readCommand (w0 :: w1 :: ws) ds = .illegal .reservedBits ws (ds.drop w1.toNat))) ∧
  (∀ (w0 w1 : Word) (ws : List Word) (ds : List Byte),
    (w0.extractLsb' 24 8 = 0x12 → w0.extractLsb' 0 24 = 0 →
      readCommand (w0 :: w1 :: ws) ds = .command (.swap32 w1) ws ds) ∧
    (w0.extractLsb' 24 8 = 0x14 → w0.extractLsb' 1 23 = 0 →
      readCommand (w0 :: w1 :: ws) ds = .command (.comp32 (w1.extractLsb' 0 8) (w1.extractLsb' 8 8)
        (w1.extractLsb' 16 8) (w1.extractLsb' 24 8) (w0.getLsbD 0)) ws ds) ∧
    (w0.extractLsb' 24 8 = 0x02 → w0.extractLsb' 3 21 = 0 → w1.toNat ≤ ds.length →
      readCommand (w0 :: w1 :: ws) ds = .command (.enc (w0.getLsbD 0) (w0.getLsbD 1) (w0.getLsbD 2) w1
        (ds.take w1.toNat)) ws (ds.drop w1.toNat))) ∧
  (∀ (s : State) (why : Reject) (ws : List Word) (ds : List Byte), s.rst = false → s.port = [] → s.errInv = false →
    readCommand s.cmdIn s.dataIn = .illegal why ws ds →
      ∃ t, step s = .next t ∧ t.errIll = true ∧ t.cmdIn = ws ∧ t.dataIn = ds ∧
        t.taken ++ t.port = s.taken ++ [.response ⟨.illegalCommand, 0⟩])

/-! ### The step -/

/-- 10_state.md R20, R34: when no reset is pending, no output waits and the channels hold a complete legal command, the
step is that command's `exec` on the state whose channels hold what stands behind it. That the very step that finds the
command runs it is the model's (log entry 15, DEDUCED; 70_reset_and_hazards.md R202 allows any finite delay), and so is
that the host, if it accepts output (R199), takes all of it at the end of that step (log entry 6, DEDUCED). -/
def Obligations.StepRunsTheDecodedCommand : Prop :=
  ∀ (s t : State) (i : Instr) (ws : List Word) (ds : List Byte), s.rst = false → s.port = [] →
    readCommand s.cmdIn s.dataIn = .command i ws ds → exec i { s with cmdIn := ws, dataIn := ds } = .next t →
      step s = .next (if t.ready then { t with taken := t.taken ++ t.port, port := [] } else t)

/-- The machine never stops: every state has a next state (60_exceptions.md R179 and section 5; holds are states that
wait, the model's choice of log entry 5). -/
def Obligations.EveryStateHasANextState : Prop :=
  ∀ s : State, ∃ t : State, step s = .next t

/-- 70_reset_and_hazards.md R198: an incomplete command is a hold, with no timeout; it is lifted only by the missing
words and bytes, or by a reset. -/
def Obligations.IncompleteCommandHolds : Prop :=
  (∀ s : State, s.rst = false → s.port = [] → readCommand s.cmdIn s.dataIn = .incomplete → step s = .next s) ∧
  (∀ (w0 : Word) (ds : List Byte), w0.extractLsb' 24 8 ∈ [0x02#8, 0x12#8, 0x14#8] →
    readCommand [w0] ds = .incomplete) ∧
  (∀ (w0 w1 : Word) (ws : List Word) (ds : List Byte), w0.extractLsb' 24 8 = 0x02 →
    (readCommand (w0 :: w1 :: ws) ds = .incomplete ↔ ds.length < w1.toNat)) ∧
  (∀ s : State, s.rst = true → ∃ t, step s = .next t ∧ (s.cmdIn.length ≤ 2 →
    readCommand s.cmdIn s.dataIn = .incomplete → t.cmdIn = [] ∧ t.dataIn = []))

/-- 70_reset_and_hazards.md R199: output not accepted holds the port; only acceptance or a reset lifts the hold; and no
step drops or reorders an output. -/
def Obligations.OutputBackpressureHolds : Prop :=
  (∀ s : State, s.rst = false → s.port ≠ [] → s.ready = false → step s = .next s) ∧
  (∀ s : State, s.rst = false → s.port ≠ [] → s.ready = true →
    step s = .next { s with taken := s.taken ++ s.port, port := [] }) ∧
  (∀ s : State, s.rst = true → ∃ t, step s = .next t ∧ t.port = [] ∧ t.rst = false) ∧
  (∀ s t : State, step s = .next t → (∃ more, t.taken = s.taken ++ more) ∧
    (s.rst = false → ∃ more, t.taken ++ t.port = s.taken ++ s.port ++ more))

/-- 10_state.md R32, R33; 42_encode.md R150: every command gives exactly one response, after its frames if it is a
successful ENC, and no other command gives frames. -/
def Obligations.OneResponsePerCommand : Prop :=
  ∀ (i : Instr) (s t : State), exec i s = .next t →
    ∃ st v, t.port = s.port ++ [.response ⟨st, v⟩] ∧ (st ≠ .ok → v = 0) ∧ (isEnc i = true → st ≠ .ok) ∨
      (isEnc i = true ∧ ∃ frames, t.port = s.port ++ [.train frames, .response ⟨.ok, v⟩])

/-- 20_memory.md R54, 42_encode.md R154: the block keeps no copy of what it delivered: no step reads what the host has
taken (the model's own record, log entry 10). -/
def Obligations.DeliveredOutputIsNeverRead : Prop :=
  ∀ s t : State, step s = .next t →
    ∃ more, t.taken = s.taken ++ more ∧ ∀ x, step { s with taken := x } = .next { t with taken := x ++ more }

/-! ### The byte-order commands and functions -/

/-- 40_byte_order.md R100, R101: the field encoders, byte by byte, and where an ENC uses them, with SWAP: the sequence id of
every frame's header and the size field of the Start frame. -/
def Obligations.FieldEncoders : Prop :=
  (∀ x : Half, e16 x false = [x.extractLsb' 0 8, x.extractLsb' 8 8] ∧
    e16 x true = [x.extractLsb' 8 8, x.extractLsb' 0 8]) ∧
  (∀ x : Word,
    e32 x false = [x.extractLsb' 0 8, x.extractLsb' 8 8, x.extractLsb' 16 8, x.extractLsb' 24 8] ∧
    e32 x true = [x.extractLsb' 24 8, x.extractLsb' 16 8, x.extractLsb' 8 8, x.extractLsb' 0 8]) ∧
  e32 1000 true = [0x00, 0x00, 0x03, 0xE8] ∧ e32 1000 false = [0xE8, 0x03, 0x00, 0x00] ∧
  (∀ (r v t : Bool) (len : Word) (buf : List Byte) (s : State), buf.length = len.toNat → s.errInv = false →
    s.cfgd = true → ∃ u frames v', exec (.enc r v t len buf) s = .next u ∧
      u.port = s.port ++ [.train frames, .response ⟨.ok, v'⟩] ∧
      (∀ j f, frames[j]? = some f → frameId f = e16 (s.seq + BitVec.ofNat 16 j) s.swap) ∧
      frames.head? = some ([s.swid] ++ e16 s.seq s.swap ++ [1] ++ e32 len s.swap))

/-- 40_byte_order.md R102: the encoders are the bytes, low first, of the value or of its swap. -/
def Obligations.EncodersAreSwapsLowByteFirst : Prop :=
  (∀ x : Half, e16 x false = [x.extractLsb' 0 8, x.extractLsb' 8 8] ∧
    e16 x true = [(swap16 x).extractLsb' 0 8, (swap16 x).extractLsb' 8 8]) ∧
  (∀ x : Word, e32 x false = [x.extractLsb' 0 8, x.extractLsb' 8 8, x.extractLsb' 16 8, x.extractLsb' 24 8] ∧
    e32 x true = [(swap32 x).extractLsb' 0 8, (swap32 x).extractLsb' 8 8, (swap32 x).extractLsb' 16 8,
      (swap32 x).extractLsb' 24 8])

/-- 40_byte_order.md R103: composing the components gives the encoded value back. -/
def Obligations.ComposeUndoesTheEncoders : Prop :=
  (∀ (x : Half) (s : Bool), ∃ a b, e16 x s = [a, b] ∧ compose16 a b s = x) ∧
  (∀ (x : Word) (s : Bool), ∃ a b c d, e32 x s = [a, b, c, d] ∧ compose32 a b c d s = x)

/-- 40_byte_order.md R110: the swaps are involutive. -/
def Obligations.SwapsAreInvolutive : Prop :=
  (∀ x : Half, swap16 (swap16 x) = x) ∧ (∀ x : Word, swap32 (swap32 x) = x)

/-- 40_byte_order.md R104. -/
def Obligations.HostendCommand : Prop :=
  (∀ s : State, s.errInv = false →
    exec .hostend s = .next { s with
      port := s.port ++ [.response ⟨.ok, match s.hostEndian with | .little => 0 | .big => 1⟩] }) ∧
  (∀ s : State, s.errInv = true →
    exec .hostend s = .next { s with port := s.port ++ [.response ⟨.faulted, 0⟩] }) ∧
  encodeWords .hostend = [0x10000000] ∧
  (∀ (w0 : Word) (ws : List Word) (ds : List Byte), w0.extractLsb' 24 8 = 0x10 → w0.extractLsb' 0 24 ≠ 0 →
    readCommand (w0 :: ws) ds = .illegal .reservedBits ws ds)

/-- 40_byte_order.md R105. -/
def Obligations.Swap16Command : Prop :=
  (∀ (x : Half) (s : State), s.errInv = false →
    exec (.swap16 x) s = .next { s with
      port := s.port ++ [.response ⟨.ok, 0#16 ++ (x.extractLsb' 0 8 ++ x.extractLsb' 8 8)⟩] }) ∧
  (∀ (x : Half) (s : State), s.errInv = true →
    exec (.swap16 x) s = .next { s with port := s.port ++ [.response ⟨.faulted, 0⟩] }) ∧
  (∀ x : Half, ∃ w, encodeWords (.swap16 x) = [w] ∧ w.toNat = 0x11000000 + x.toNat) ∧
  (∀ (w0 : Word) (ws : List Word) (ds : List Byte), w0.extractLsb' 24 8 = 0x11 → w0.extractLsb' 16 8 ≠ 0 →
    readCommand (w0 :: ws) ds = .illegal .reservedBits ws ds) ∧
  (∀ x : Half, swap16 (swap16 x) = x) ∧ (∀ b : Byte, swap16 (b ++ b) = b ++ b) ∧
  (readCommand [0x11000123] [] = .command (.swap16 291) [] [] ∧ swap16 291 = 8961)

/-- 40_byte_order.md R106. -/
def Obligations.Swap32Command : Prop :=
  (∀ (x : Word) (s : State), s.errInv = false →
    exec (.swap32 x) s = .next { s with
      port := s.port ++
        [.response ⟨.ok, x.extractLsb' 0 8 ++ x.extractLsb' 8 8 ++ x.extractLsb' 16 8 ++ x.extractLsb' 24 8⟩] }) ∧
  (∀ (x : Word) (s : State), s.errInv = true →
    exec (.swap32 x) s = .next { s with port := s.port ++ [.response ⟨.faulted, 0⟩] }) ∧
  (∀ x : Word, encodeWords (.swap32 x) = [0x12000000, x]) ∧
  (∀ (w0 w1 : Word) (ws : List Word) (ds : List Byte), w0.extractLsb' 24 8 = 0x12 → w0.extractLsb' 0 24 ≠ 0 →
    readCommand (w0 :: w1 :: ws) ds = .illegal .reservedBits ws ds) ∧
  (∀ x : Word, swap32 (swap32 x) = x) ∧ swap32 0 = 0 ∧ swap32 0xFFFFFFFF = 0xFFFFFFFF ∧
  swap32 0x12345678 = 0x78563412 ∧
  (readCommand [0x12000000, 0x00000123] [] = .command (.swap32 291) [] [] ∧ swap32 291 = 587268096)

/-- 40_byte_order.md R107. -/
def Obligations.Comp16Command : Prop :=
  (∀ (b0 b1 : Byte) (sw : Bool) (s : State), s.errInv = false →
    exec (.comp16 b0 b1 sw) s = .next { s with
      port := s.port ++ [.response ⟨.ok, 0#16 ++ (match sw with | false => b1 ++ b0 | true => b0 ++ b1)⟩] }) ∧
  (∀ (b0 b1 : Byte) (sw : Bool) (s : State), s.errInv = true →
    exec (.comp16 b0 b1 sw) s = .next { s with port := s.port ++ [.response ⟨.faulted, 0⟩] }) ∧
  (∀ (b0 b1 : Byte) (sw : Bool), ∃ w, encodeWords (.comp16 b0 b1 sw) = [w] ∧
    w.toNat = 0x13000000 + sw.toNat * 2 ^ 16 + b1.toNat * 2 ^ 8 + b0.toNat) ∧
  (∀ (w0 : Word) (ws : List Word) (ds : List Byte), w0.extractLsb' 24 8 = 0x13 → w0.extractLsb' 17 7 ≠ 0 →
    readCommand (w0 :: ws) ds = .illegal .reservedBits ws ds) ∧
  (∀ (b : Byte) (sw : Bool), compose16 b b sw = b ++ b) ∧
  (readCommand [0x130003E8] [] = .command (.comp16 0xE8 0x03 false) [] [] ∧ compose16 0xE8 0x03 false = 1000) ∧
  (readCommand [0x1301E803] [] = .command (.comp16 0x03 0xE8 true) [] [] ∧ compose16 0x03 0xE8 true = 1000)

/-- 40_byte_order.md R108. -/
def Obligations.Comp32Command : Prop :=
  (∀ (b0 b1 b2 b3 : Byte) (sw : Bool) (s : State), s.errInv = false →
    exec (.comp32 b0 b1 b2 b3 sw) s = .next { s with
      port := s.port ++
        [.response ⟨.ok, match sw with | false => b3 ++ b2 ++ b1 ++ b0 | true => b0 ++ b1 ++ b2 ++ b3⟩] }) ∧
  (∀ (b0 b1 b2 b3 : Byte) (sw : Bool) (s : State), s.errInv = true →
    exec (.comp32 b0 b1 b2 b3 sw) s = .next { s with port := s.port ++ [.response ⟨.faulted, 0⟩] }) ∧
  (∀ (b0 b1 b2 b3 : Byte) (sw : Bool), ∃ w0 w1, encodeWords (.comp32 b0 b1 b2 b3 sw) = [w0, w1] ∧
    w0.toNat = 0x14000000 + sw.toNat ∧
    w1.toNat = b3.toNat * 2 ^ 24 + b2.toNat * 2 ^ 16 + b1.toNat * 2 ^ 8 + b0.toNat) ∧
  (∀ (w0 w1 : Word) (ws : List Word) (ds : List Byte), w0.extractLsb' 24 8 = 0x14 → w0.extractLsb' 1 23 ≠ 0 →
    readCommand (w0 :: w1 :: ws) ds = .illegal .reservedBits ws ds) ∧
  (∀ w1 : Word, ∃ b0 b1 b2 b3, readCommand [0x14000000, w1] [] = .command (.comp32 b0 b1 b2 b3 false) [] [] ∧
    compose32 b0 b1 b2 b3 false = w1) ∧
  (readCommand [0x14000001, 0xE8030000] [] = .command (.comp32 0x00 0x00 0x03 0xE8 true) [] [] ∧
    compose32 0x00 0x00 0x03 0xE8 true = 1000)

/-- 40_byte_order.md R109. -/
def Obligations.RdbitCommand : Prop :=
  (∀ (b : Byte) (pos : BitVec 3) (s : State), s.errInv = false →
    exec (.rdbit b pos) s = .next { s with
      port := s.port ++ [.response ⟨.ok, BitVec.ofNat 32 (b.toNat / 2 ^ pos.toNat % 2)⟩] }) ∧
  (∀ (b : Byte) (pos : BitVec 3) (s : State), s.errInv = true →
    exec (.rdbit b pos) s = .next { s with port := s.port ++ [.response ⟨.faulted, 0⟩] }) ∧
  (∀ (b : Byte) (pos : BitVec 3), ∃ w, encodeWords (.rdbit b pos) = [w] ∧
    w.toNat = 0x15000000 + pos.toNat * 2 ^ 8 + b.toNat) ∧
  (∀ (w0 : Word) (ws : List Word) (ds : List Byte), w0.extractLsb' 24 8 = 0x15 → w0.extractLsb' 11 13 ≠ 0 →
    readCommand (w0 :: ws) ds = .illegal .reservedBits ws ds) ∧
  (readCommand [0x15000102] [] = .command (.rdbit 0x02 1) [] [] ∧ readBit 0x02 1 = true) ∧
  (readCommand [0x15000002] [] = .command (.rdbit 0x02 0) [] [] ∧ readBit 0x02 0 = false) ∧
  (∀ r v t : Bool, readBit (packFlags r v t) 0 = r ∧ readBit (packFlags r v t) 1 = v ∧
    readBit (packFlags r v t) 2 = t)

/-! ### Configuration, status and the registers -/

/-- 41_generator_config.md R120. -/
def Obligations.CfgCommand : Prop :=
  (∀ (swid : Byte) (we : Endian) (s : State), s.errInv = false →
    exec (.cfg swid we) s = .next { s with
      swid := swid, we := we, swap := decide (s.hostEndian ≠ we), seq := 0, cfgd := true
      port := s.port ++ [.response ⟨.ok, 0⟩] }) ∧
  (∀ (swid : Byte) (we : Endian) (s : State), s.errInv = true →
    exec (.cfg swid we) s = .next { s with port := s.port ++ [.response ⟨.faulted, 0⟩] }) ∧
  (∀ (swid : Byte) (we : Endian), ∃ w, encodeWords (.cfg swid we) = [w] ∧
    w.toNat = 0x01000000 + (match we with | .little => 0 | .big => 2 ^ 8) + swid.toNat) ∧
  (∀ (w0 : Word) (ws : List Word) (ds : List Byte), w0.extractLsb' 24 8 = 0x01 → w0.extractLsb' 9 15 ≠ 0 →
    readCommand (w0 :: ws) ds = .illegal .reservedBits ws ds) ∧
  readCommand [0x01000034] [] = .command (.cfg 0x34 .little) [] []

/-- 41_generator_config.md R124, 60_exceptions.md R174 first bullet: STAT answers the status word in every state, a FAULTED
one too, and writes nothing. -/
def Obligations.StatCommand : Prop :=
  (∀ s : State, exec .stat s = .next { s with port := s.port ++ [.response ⟨.ok, statusWord s⟩] }) ∧
  encodeWords .stat = [0x03000000] ∧
  (∀ (w0 : Word) (ws : List Word) (ds : List Byte), w0.extractLsb' 24 8 = 0x03 → w0.extractLsb' 0 24 ≠ 0 →
    readCommand (w0 :: ws) ds = .illegal .reservedBits ws ds) ∧
  (∀ s t : State, exec .stat s = .next t → statusWord t = statusWord s) ∧
  (∀ s : State, s.seq = 3 → s.swid = 0x34 → s.we = .little → s.swap = false → s.hostEndian = .little → s.cfgd = true →
    s.errIll = false → s.errNcfg = false → s.errInv = false → statusWord s = 0x08340003)

/-- 10_state.md R38: the layout of the status word, and its value right after reset for either HOST_ENDIAN. -/
def Obligations.StatusWordLayout : Prop :=
  (∀ s : State,
    (statusWord s).extractLsb' 0 16 = s.seq ∧ (statusWord s).extractLsb' 16 8 = s.swid ∧
    (statusWord s).getLsbD 24 = decide (s.we = .big) ∧ (statusWord s).getLsbD 25 = s.swap ∧
    (statusWord s).getLsbD 26 = decide (s.hostEndian = .big) ∧ (statusWord s).getLsbD 27 = s.cfgd ∧
    (statusWord s).getLsbD 28 = s.errIll ∧ (statusWord s).getLsbD 29 = s.errNcfg ∧
    (statusWord s).getLsbD 30 = s.errInv ∧ (statusWord s).getLsbD 31 = false) ∧
  statusWord (State.resetFor .little) = 0x00000000 ∧ statusWord (State.resetFor .big) = 0x06000000

/-- 41_generator_config.md R121: the swap decision, its four rows, when it is computed (CFG and reset), and that it is held
otherwise. -/
def Obligations.SwapDecisionRule : Prop :=
  (swapDecision .little .little = false ∧ swapDecision .little .big = true ∧ swapDecision .big .little = true ∧
    swapDecision .big .big = false) ∧
  (∀ (swid : Byte) (we : Endian) (s : State), s.errInv = false →
    ∃ t, exec (.cfg swid we) s = .next t ∧ t.we = we ∧ t.swap = swapDecision s.hostEndian we) ∧
  (∀ s : State, s.rst = true → ∃ t, step s = .next t ∧ t.we = .little ∧ t.swap = swapDecision s.hostEndian .little) ∧
  (∀ (i : Instr) (s t : State), isCfg i = false → exec i s = .next t → t.we = s.we ∧ t.swap = s.swap) ∧
  (∀ (x : Half) (y : Word), e16 x false = [x.extractLsb' 0 8, x.extractLsb' 8 8] ∧
    e16 x true = [x.extractLsb' 8 8, x.extractLsb' 0 8] ∧
    (e32 y false).head? = some (y.extractLsb' 0 8) ∧ (e32 y true).head? = some (y.extractLsb' 24 8))

/-- 41_generator_config.md R123: SEQ is set to 0 only by CFG and by reset, advanced only by a successful ENC (by its number
of frames, from the id its first frame carries on), and otherwise unchanged, by an ENC that raises an error too. -/
def Obligations.SequenceCounterPersists : Prop :=
  (∀ (i : Instr) (s t : State), exec i s = .next t →
    if isCfg i = true ∧ s.errInv = false then t.seq = 0
    else t.seq = s.seq + BitVec.ofNat 16 (framesOf (t.port.drop s.port.length)).length) ∧
  (∀ s t : State, s.rst = true → step s = .next t → t.seq = 0) ∧
  (∀ s t : State, s.rst = false → step s = .next t →
    (∀ i ws ds, readCommand s.cmdIn s.dataIn = .command i ws ds → isCfg i = false ∧ isEnc i = false) → t.seq = s.seq) ∧
  (∀ (r v t : Bool) (len : Word) (buf : List Byte) (s u : State), exec (.enc r v t len buf) s = .next u →
    (∀ f rest, framesOf (u.port.drop s.port.length) = f :: rest → frameId f = e16 s.seq s.swap) ∧
    (framesOf (u.port.drop s.port.length) = [] → u.seq = s.seq))

/-- 10_state.md R25, R26; 42_encode.md R155: SWID, WE, SWAP and CFGD are written by CFG and by reset only; an ENC leaves
them. -/
def Obligations.ConfigurationWrittenOnlyByCfgAndReset : Prop :=
  (∀ (i : Instr) (s t : State), isCfg i = false → exec i s = .next t →
    t.swid = s.swid ∧ t.we = s.we ∧ t.swap = s.swap ∧ t.cfgd = s.cfgd) ∧
  (∀ s t : State, s.rst = false → step s = .next t →
    (∀ i ws ds, readCommand s.cmdIn s.dataIn = .command i ws ds → isCfg i = false) →
    t.swid = s.swid ∧ t.we = s.we ∧ t.swap = s.swap ∧ t.cfgd = s.cfgd)

/-- 10_state.md R28: CFGD is 0 after reset, set to 1 by every CFG (that a FAULTED block does not refuse), written by no
other command, and ENC executes only when it is 1. -/
def Obligations.ConfiguredBit : Prop :=
  (∀ s t : State, s.rst = true → step s = .next t → t.cfgd = false) ∧
  (∀ (swid : Byte) (we : Endian) (s : State), s.errInv = false →
    ∃ t, exec (.cfg swid we) s = .next t ∧ t.cfgd = true) ∧
  (∀ (i : Instr) (s t : State), isCfg i = false → exec i s = .next t → t.cfgd = s.cfgd) ∧
  (∀ (i : Instr) (s t : State), isEnc i = true → s.errInv = false → s.cfgd = false → exec i s = .next t →
    t.port = s.port ++ [.response ⟨.notConfigured, 0⟩]) ∧
  (∀ s : State, (statusWord s).getLsbD 27 = s.cfgd)

/-- 10_state.md R29, R30; 70_reset_and_hazards.md R192: the error bits are 0 after reset, no step but a reset clears one,
and STAT reads all three. -/
def Obligations.ErrorBitsAreSticky : Prop :=
  (∀ s t : State, s.rst = true → step s = .next t → t.errIll = false ∧ t.errNcfg = false ∧ t.errInv = false) ∧
  (∀ s t : State, s.rst = false → step s = .next t →
    (s.errIll = true → t.errIll = true) ∧ (s.errNcfg = true → t.errNcfg = true) ∧
    (s.errInv = true → t.errInv = true)) ∧
  (∀ s : State, raise .illegalCommand s = { s with
      errIll := true, port := s.port ++ [.response ⟨.illegalCommand, 0⟩] } ∧
    raise .notConfigured s = { s with errNcfg := true, port := s.port ++ [.response ⟨.notConfigured, 0⟩] } ∧
    raise .invariantFault s = { s with errInv := true, port := s.port ++ [.response ⟨.invariantFault, 0⟩] }) ∧
  (∀ s : State, (statusWord s).getLsbD 28 = s.errIll ∧ (statusWord s).getLsbD 29 = s.errNcfg ∧
    (statusWord s).getLsbD 30 = s.errInv)

/-- 00_scope.md R9, 70_reset_and_hazards.md R192: no step, a reset too, changes HOST_ENDIAN. -/
def Obligations.HostEndianNeverChanges : Prop :=
  ∀ s t : State, step s = .next t → t.hostEndian = s.hostEndian

/-- 20_memory.md R48: the commands other than CFG and ENC change no state but for their one response, and give the same
response when issued twice; a successful ENC issued twice gives two trains whose ids differ. -/
def Obligations.SideEffectsOnlyOfEncCfgAndErrors : Prop :=
  (∀ (i : Instr) (s : State), isCfg i = false → isEnc i = false →
    ∃ r, exec i s = .next { s with port := s.port ++ [.response r] } ∧
      exec i { s with port := s.port ++ [.response r] } =
        .next { s with port := s.port ++ [.response r] ++ [.response r] }) ∧
  (∀ (r v t : Bool) (len : Word) (buf : List Byte) (s : State), buf.length = len.toNat → s.errInv = false →
    s.cfgd = true → (2 + specChunks buf.length) % 65536 ≠ 0 → ∃ t1 t2 f1 f2 rest1 rest2,
      exec (.enc r v t len buf) s = .next t1 ∧ exec (.enc r v t len buf) t1 = .next t2 ∧
      framesOf (t1.port.drop s.port.length) = f1 :: rest1 ∧ framesOf (t2.port.drop t1.port.length) = f2 :: rest2 ∧
      frameId f1 ≠ frameId f2)

/-! ### ENC -/

/-- 42_encode.md R140: ENC's whole effect, its errors, its encoding and its example; the train is written in closed form
(R141 to R146), so the loop with the source's two counters (R153) is shown to cut the buffer as the spec says. -/
def Obligations.EncCommand : Prop :=
  (∀ (r v t : Bool) (len : Word) (buf : List Byte) (s : State), buf.length = len.toNat → s.errInv = false →
    s.cfgd = true →
    exec (.enc r v t len buf) s = .next { s with
      seq := s.seq + BitVec.ofNat 16 (2 + specChunks len.toNat)
      port := s.port ++ [.train (specTrain s r v t len buf),
        .response ⟨.ok, BitVec.ofNat 32 (2 + specChunks len.toNat)⟩] }) ∧
  (∀ (r v t : Bool) (len : Word) (buf : List Byte) (s : State), s.errInv = false → s.cfgd = false →
    exec (.enc r v t len buf) s = .next { s with
      errNcfg := true, port := s.port ++ [.response ⟨.notConfigured, 0⟩] }) ∧
  (∀ (r v t : Bool) (len : Word) (buf : List Byte) (s : State), s.errInv = true →
    exec (.enc r v t len buf) s = .next { s with port := s.port ++ [.response ⟨.faulted, 0⟩] }) ∧
  (∀ (r v t : Bool) (len : Word) (buf : List Byte), ∃ w0, encodeWords (.enc r v t len buf) = [w0, len] ∧
    w0.toNat = 0x02000000 + 4 * t.toNat + 2 * v.toNat + r.toNat ∧ encodeData (.enc r v t len buf) = buf) ∧
  (∀ (w0 w1 : Word) (ws : List Word) (ds : List Byte), w0.extractLsb' 24 8 = 0x02 → w0.extractLsb' 3 21 ≠ 0 →
    w1.toNat ≤ ds.length → readCommand (w0 :: w1 :: ws) ds = .illegal .reservedBits ws (ds.drop w1.toNat)) ∧
  (2 + specChunks (2 ^ 32 - 1) = 72796058 ∧ 2 ^ 32 - 1 - 59 * (specChunks (2 ^ 32 - 1) - 1) = 50) ∧
  (∀ s : State, s.swid = 0x34 → s.swap = false → s.seq = 0 → specTrain s true false false 1 [0xAA] =
    [[0x34, 0x00, 0x00, 0x01, 0x01, 0x00, 0x00, 0x00], [0x34, 0x01, 0x00, 0x02, 0x01, 0xAA],
      [0x34, 0x02, 0x00, 0x03, 0x01]])

/-- 41_generator_config.md R122: consuming gives the value before the increment, and the increment wraps; so every frame
of a successful ENC carries one id, the running counter from SEQ on. -/
def Obligations.ConsumingSequenceIds : Prop :=
  (∀ c : Half, (consume c).1 = c ∧ (consume c).2.toNat = (c.toNat + 1) % 65536) ∧
  consume 0xFFFF = (0xFFFF, 0x0000) ∧
  (∀ (r v t : Bool) (len : Word) (buf : List Byte) (s : State), buf.length = len.toNat → s.errInv = false →
    s.cfgd = true → ∃ u frames v', exec (.enc r v t len buf) s = .next u ∧
      u.port = s.port ++ [.train frames, .response ⟨.ok, v'⟩] ∧ u.seq = s.seq + BitVec.ofNat 16 frames.length ∧
      ∀ j f, frames[j]? = some f → frameId f = e16 (s.seq + BitVec.ofNat 16 j) s.swap)

/-- 41_generator_config.md R126: SEQ advances by the number of frames, modulo 2^16, and the frames carry consecutive ids. -/
def Obligations.EncAdvancesSeqByItsFrames : Prop :=
  ∀ (r v t : Bool) (len : Word) (buf : List Byte) (s : State), buf.length = len.toNat → s.errInv = false →
    s.cfgd = true → ∃ u frames v', exec (.enc r v t len buf) s = .next u ∧
      u.port = s.port ++ [.train frames, .response ⟨.ok, v'⟩] ∧ frames.length = 2 + ceilDiv len.toNat 59 ∧
      u.seq.toNat = (s.seq.toNat + frames.length) % 65536 ∧
      u.seq.toNat = (s.seq.toNat + 2 + ceilDiv len.toNat 59) % 65536 ∧
      ∀ j f, frames[j]? = some f → ∃ id : Half, id.toNat = (s.seq.toNat + j) % 65536 ∧ frameId f = e16 id s.swap

/-- 42_encode.md R146, R151; 00_scope.md R11: the shape and the count of a train, and the result word. -/
def Obligations.TrainShapeAndCount : Prop :=
  ∀ (r v t : Bool) (len : Word) (buf : List Byte) (s : State), buf.length = len.toNat → s.errInv = false →
    s.cfgd = true → ∃ u frames result, exec (.enc r v t len buf) s = .next u ∧
      u.port = s.port ++ [.train frames, .response ⟨.ok, result⟩] ∧
      frames.map frameKind = some 1 :: List.replicate (ceilDiv len.toNat 59) (some 2) ++ [some 3] ∧
      frames.length = 2 + ceilDiv len.toNat 59 ∧ result.toNat = frames.length ∧ result.toNat ≤ 72796058 ∧
      (∀ f ∈ frames, f.length ≤ 64)

/-- 42_encode.md R142, R143: the partition of the buffer and the Data frames of its chunks. -/
def Obligations.ChunksPartitionTheBuffer : Prop :=
  ∀ (r v t : Bool) (len : Word) (buf : List Byte) (s : State), buf.length = len.toNat → s.errInv = false →
    s.cfgd = true → ∃ u frames v', exec (.enc r v t len buf) s = .next u ∧
      u.port = s.port ++ [.train frames, .response ⟨.ok, v'⟩] ∧ frames.length = 2 + ceilDiv len.toNat 59 ∧
      ∀ j, j < ceilDiv len.toNat 59 → ∃ f n, frames[1 + j]? = some f ∧ frameKind f = some 2 ∧
        frameId f = e16 (s.seq + 1 + BitVec.ofNat 16 j) s.swap ∧ f[4]? = some (BitVec.ofNat 8 n) ∧
        framePayload f = (buf.drop (59 * j)).take n ∧ 59 * j + n ≤ buf.length ∧ 1 ≤ n ∧ n ≤ 59 ∧
        (j + 1 < ceilDiv len.toNat 59 → n = 59) ∧
        (j + 1 = ceilDiv len.toNat 59 → n = buf.length - 59 * (ceilDiv len.toNat 59 - 1))

/-- 42_encode.md R147: the payloads in emission order are the buffer, and the Start frame's size field decodes to L. -/
def Obligations.PayloadsReconstructTheBuffer : Prop :=
  ∀ (r v t : Bool) (len : Word) (buf : List Byte) (s : State), buf.length = len.toNat → s.errInv = false →
    s.cfgd = true → ∃ u frames v', exec (.enc r v t len buf) s = .next u ∧
      u.port = s.port ++ [.train frames, .response ⟨.ok, v'⟩] ∧
      (frames.map framePayload).flatten = buf ∧
      ∃ a b c d, frames.head?.map (List.drop 4) = some [a, b, c, d] ∧ compose32 a b c d s.swap = len

/-- 42_encode.md R144, 30_encoding.md R80: the last frame is a Stop frame whose flags byte is R + 2 V + 4 T. -/
def Obligations.StopFrameFlags : Prop :=
  (∀ r v t : Bool, (packFlags r v t).toNat = r.toNat + 2 * v.toNat + 4 * t.toNat ∧
    (packFlags r v t).extractLsb' 3 5 = 0) ∧
  (∀ (r v t : Bool) (len : Word) (buf : List Byte) (s : State), buf.length = len.toNat → s.errInv = false →
    s.cfgd = true → ∃ u frames v' f, exec (.enc r v t len buf) s = .next u ∧
      u.port = s.port ++ [.train frames, .response ⟨.ok, v'⟩] ∧ frames.getLast? = some f ∧ f.length = 5 ∧
      frameKind f = some 3 ∧ f[4]? = some (packFlags r v t))

/-- 42_encode.md R152: the empty buffer gives exactly a Start and a Stop frame. -/
def Obligations.ZeroLengthBuffer : Prop :=
  ∀ (r v t : Bool) (s : State), s.errInv = false → s.cfgd = true →
    (∀ ws ds, readCommand (encodeWords (.enc r v t 0 []) ++ ws) ds = .command (.enc r v t 0 []) ws ds) ∧
    exec (.enc r v t 0 []) s = .next { s with
      seq := s.seq + 2
      port := s.port ++ [.train [header s.swid s.swap s.seq 1 ++ [0, 0, 0, 0],
        header s.swid s.swap (s.seq + 1) 3 ++ [packFlags r v t]], .response ⟨.ok, 2⟩] }

/-- 42_encode.md R153, R148: from any point of the loop at which `off + rem = L` and the fuel covers `rem`, every chunk
check and every MemRead passes and the payloads are the rest of the buffer. -/
def Obligations.ChunkerCountersAgree : Prop :=
  ∀ (swid : Byte) (swap : Bool) (buf : List Byte) (fuel : Nat) (c : Half) (off rem : Nat), off + rem = buf.length →
    rem ≤ fuel → ∃ frames, dataFrames swid swap buf fuel c off rem =
        .ok (frames, c + BitVec.ofNat 16 (ceilDiv rem 59)) ∧
      frames.length = ceilDiv rem 59 ∧ (frames.map framePayload).flatten = buf.drop off

/-- 41_generator_config.md R125: the frames emitted since a CFG, by any list of complete commands without another CFG,
carry the ids 0, 1, 2, ... modulo 2^16, and SEQ is their number modulo 2^16. -/
def Obligations.SessionFramesAreNumberedFromZero : Prop :=
  ∀ (swid : Byte) (we : Endian) (is : List Instr) (s : State), s.errInv = false →
    (∀ i ∈ is, wellFormed i = true ∧ isCfg i = false) →
    ∃ t, runAll (.cfg swid we :: is) s = .next t ∧
      t.seq = BitVec.ofNat 16 (framesOf (t.port.drop s.port.length)).length ∧
      ∀ k f, (framesOf (t.port.drop s.port.length))[k]? = some f →
        frameId f = e16 (BitVec.ofNat 16 k) (decide (s.hostEndian ≠ we))

/-- 70_reset_and_hazards.md R197: frames 65536 apart in a session carry the same id; an ENC of more than 3,866,506 bytes
emits more than 65536 frames, so one train then holds an id twice. -/
def Obligations.LongTrainsReuseIds : Prop :=
  (∀ (swid : Byte) (we : Endian) (is : List Instr) (s : State), s.errInv = false →
    (∀ i ∈ is, wellFormed i = true ∧ isCfg i = false) →
    ∃ t, runAll (.cfg swid we :: is) s = .next t ∧
      ∀ k f g, (framesOf (t.port.drop s.port.length))[k]? = some f →
        (framesOf (t.port.drop s.port.length))[k + 65536]? = some g → frameId f = frameId g) ∧
  ∀ (r v t : Bool) (len : Word) (buf : List Byte) (s : State), buf.length = len.toNat → s.errInv = false →
    s.cfgd = true → ∃ u frames v', exec (.enc r v t len buf) s = .next u ∧
      u.port = s.port ++ [.train frames, .response ⟨.ok, v'⟩] ∧
      (3866506 < len.toNat ↔ 65536 < frames.length) ∧
      ∀ j f g, frames[j]? = some f → frames[j + 65536]? = some g → frameId f = frameId g

/-- 30_encoding.md R81, 10_state.md R33: the length of a frame from its own bytes; frames that keep the constraints of R82
can be told apart in the byte stream, by their own bytes and by the end-of-frame marks; and so can those of every train. -/
def Obligations.FrameBoundariesAreFound : Prop :=
  (∀ (a b c x : Byte) (rest : List Byte), frameLength (a :: b :: c :: 1 :: x :: rest) = some 8 ∧
    frameLength (a :: b :: c :: 2 :: x :: rest) = some (5 + x.toNat) ∧
    frameLength (a :: b :: c :: 3 :: x :: rest) = some 5) ∧
  (∀ frames : List Frame, (∀ f ∈ frames, frameOk f = true) →
    splitFrames frames.length frames.flatten = some frames) ∧
  (∀ frames : List Frame, (∀ f ∈ frames, f ≠ []) → splitMarked (frames.map markFrame).flatten = frames) ∧
  (∀ f : Frame, frameOk f = true → f ≠ [] ∧ frameLength f = some f.length ∧ f.length ≤ 64) ∧
  (∀ (r v t : Bool) (len : Word) (buf : List Byte) (s : State), buf.length = len.toNat → s.errInv = false →
    s.cfgd = true → ∃ u frames v', exec (.enc r v t len buf) s = .next u ∧
      u.port = s.port ++ [.train frames, .response ⟨.ok, v'⟩] ∧ (∀ f ∈ frames, frameOk f = true) ∧
      splitFrames frames.length frames.flatten = some frames ∧ splitMarked (frames.map markFrame).flatten = frames)

/-! ### Errors and reset -/

/-- 60_exceptions.md R170: the status codes, and that no other value is returned. -/
def Obligations.StatusCodes : Prop :=
  statusCode .ok = 0x00 ∧ statusCode .illegalCommand = 0x01 ∧ statusCode .notConfigured = 0x02 ∧
  statusCode .invariantFault = 0x03 ∧ statusCode .faulted = 0x04 ∧ (∀ st, (statusCode st).toNat ≤ 4) ∧
  (∀ e s, registersOf (raise e s) = match e with
    | .illegalCommand => { registersOf s with errIll := true }
    | .notConfigured => { registersOf s with errNcfg := true }
    | .invariantFault => { registersOf s with errInv := true }) ∧
  (∀ s, registersOf (refuseFaulted s) = registersOf s)

/-- 60_exceptions.md R171: an illegal command sets ERR_ILL, answers status 0x01 and result 0, has its full length
consumed, and changes no other register. -/
def Obligations.IllegalCommandError : Prop :=
  ∀ (s : State) (why : Reject) (ws : List Word) (ds : List Byte), s.rst = false → s.port = [] → s.errInv = false →
    readCommand s.cmdIn s.dataIn = .illegal why ws ds →
    ∃ t, step s = .next t ∧ registersOf t = { registersOf s with errIll := true } ∧ t.cmdIn = ws ∧ t.dataIn = ds ∧
      t.taken ++ t.port = s.taken ++ [.response ⟨.illegalCommand, 0⟩]

/-- 60_exceptions.md R172: a well-formed ENC before any CFG sets ERR_NCFG, answers status 0x02 and result 0, has its words
and data bytes consumed, and changes no other register; no other command raises it. -/
def Obligations.NotConfiguredError : Prop :=
  (∀ (s : State) (r v t : Bool) (len : Word) (buf : List Byte) (ws : List Word) (ds : List Byte), s.rst = false →
    s.port = [] → s.errInv = false → s.cfgd = false →
    readCommand s.cmdIn s.dataIn = .command (.enc r v t len buf) ws ds →
    ∃ u, step s = .next u ∧ registersOf u = { registersOf s with errNcfg := true } ∧ u.cmdIn = ws ∧ u.dataIn = ds ∧
      u.taken ++ u.port = s.taken ++ [.response ⟨.notConfigured, 0⟩]) ∧
  (∀ (i : Instr) (s t : State), isEnc i = false → exec i s = .next t →
    t.port ≠ s.port ++ [.response ⟨.notConfigured, 0⟩])

/-- 60_exceptions.md R173, 20_memory.md R41: an ENC that reads outside its buffer sets ERR_INV, answers status 0x03 with
no frame and leaves SEQ; the model reaches it only for an ill-formed ENC, one with fewer data bytes than LEN (log entry
4). -/
def Obligations.InvariantFaultError : Prop :=
  ∀ (r v t : Bool) (len : Word) (buf : List Byte) (s : State), s.errInv = false → s.cfgd = true →
    buf.length < len.toNat → exec (.enc r v t len buf) s = .next { s with
      errInv := true, port := s.port ++ [.response ⟨.invariantFault, 0⟩] }

/-- 60_exceptions.md R174: a FAULTED block executes a well-formed STAT, refuses every other complete command with no other
effect than its consumption, and leaves FAULTED only through reset. -/
def Obligations.FaultedBlockRefusesAllButStat : Prop :=
  (∀ s : State, s.errInv = true →
    exec .stat s = .next { s with port := s.port ++ [.response ⟨.ok, statusWord s⟩] }) ∧
  (∀ (i : Instr) (s : State), i ≠ .stat → s.errInv = true →
    exec i s = .next { s with port := s.port ++ [.response ⟨.faulted, 0⟩] }) ∧
  (∀ (s : State) (ws : List Word) (ds : List Byte), s.rst = false → s.port = [] → s.errInv = true →
    (∃ why, readCommand s.cmdIn s.dataIn = .illegal why ws ds) ∨
      (∃ i, i ≠ .stat ∧ readCommand s.cmdIn s.dataIn = .command i ws ds) →
      ∃ t, step s = .next t ∧ registersOf t = registersOf s ∧ t.cmdIn = ws ∧ t.dataIn = ds ∧
        t.taken ++ t.port = s.taken ++ [.response ⟨.faulted, 0⟩]) ∧
  (∀ s t : State, s.errInv = true → step s = .next t → t.errInv = false → s.rst = true) ∧
  (∀ s : State, s.rst = true → ∃ t, step s = .next t ∧ t.errInv = false)

/-- 60_exceptions.md R175: the one status that a step reports, in the order FAULTED, ILLEGAL_COMMAND, NOT_CONFIGURED, OK.
INVARIANT_FAULT does not occur, since what the step reads has its LEN data bytes (R173). An incomplete command gives no
response; that the step then leaves the state as it is is the model's (log entry 5, DEDUCED). -/
def Obligations.ErrorPriority : Prop :=
  ∀ s : State, s.rst = false → s.port = [] →
    match readCommand s.cmdIn s.dataIn with
    | .incomplete => step s = .next s
    | .illegal _ _ _ => ∃ t v, step s = .next t ∧ responsesOf (t.taken ++ t.port) =
        responsesOf s.taken ++ [⟨if s.errInv then .faulted else .illegalCommand, v⟩]
    | .command i _ _ => ∃ t v, step s = .next t ∧ responsesOf (t.taken ++ t.port) = responsesOf s.taken ++
        [⟨if s.errInv = true ∧ i ≠ .stat then .faulted
          else if isEnc i = true ∧ s.cfgd = false then .notConfigured else .ok, v⟩]

/-- 60_exceptions.md R176: a command that raises an error changes no register but its one sticky bit, delivers no frame
and answers result 0. -/
def Obligations.ErrorsArePrecise : Prop :=
  ∀ (i : Instr) (s t : State) (st : Status) (v : Word), exec i s = .next t →
    t.port.getLast? = some (.response ⟨st, v⟩) → st ≠ .ok →
    v = 0 ∧ t.port = s.port ++ [.response ⟨st, 0⟩] ∧ t.cmdIn = s.cmdIn ∧ t.dataIn = s.dataIn ∧
    ((st = .notConfigured ∧ registersOf t = { registersOf s with errNcfg := true }) ∨
      (st = .invariantFault ∧ registersOf t = { registersOf s with errInv := true }) ∨
      (st = .faulted ∧ s.errInv = true ∧ registersOf t = registersOf s))

/-- 60_exceptions.md R173, 42_encode.md R148, R149: no step makes a block FAULTED, since no check of an ENC with its LEN
data bytes can fail. -/
def Obligations.ConformingBlockNeverFaults : Prop :=
  ∀ s t : State, step s = .next t → s.errInv = false → t.errInv = false

/-- 70_reset_and_hazards.md R190, 10_state.md R21: a reset gives every register its reset value, whatever the state before,
for either HOST_ENDIAN, and discards a command that has only partly arrived; the model's reset state has those values. -/
def Obligations.ResetSetsEveryRegister : Prop :=
  (∀ s : State, s.rst = true → ∃ t, step s = .next t ∧ t.rst = false ∧ t.hostEndian = s.hostEndian ∧
    registersOf t = registersOf (State.resetFor s.hostEndian) ∧
    (s.cmdIn.length ≤ 2 → readCommand s.cmdIn s.dataIn = .incomplete → t.cmdIn = [] ∧ t.dataIn = [])) ∧
  (∀ h : Endian, (registersOf (State.resetFor h)).seq = 0x0000 ∧ (registersOf (State.resetFor h)).swid = 0x00 ∧
    (registersOf (State.resetFor h)).we = .little ∧ (registersOf (State.resetFor h)).swap = decide (h ≠ .little) ∧
    (registersOf (State.resetFor h)).cfgd = false ∧ (registersOf (State.resetFor h)).errIll = false ∧
    (registersOf (State.resetFor h)).errNcfg = false ∧ (registersOf (State.resetFor h)).errInv = false)

/-- 70_reset_and_hazards.md R191: a reset discards a command that has only partly arrived, keeps the complete commands
before it (the model runs them after the reset, log entry 7), and takes back no output (what was presented goes to the
host, log entry 8). -/
def Obligations.ResetDiscardsOnlyThePartialCommand : Prop :=
  ∀ (s : State) (is : List Instr) (pw : List Word) (pd : List Byte), s.rst = true →
    (∀ i ∈ is, wellFormed i = true) → pw.length ≤ 2 → readCommand pw pd = .incomplete →
    s.cmdIn = (is.map encodeWords).flatten ++ pw → s.dataIn = (is.map encodeData).flatten ++ pd →
    ∃ t, step s = .next t ∧ t.cmdIn = (is.map encodeWords).flatten ∧ t.dataIn = (is.map encodeData).flatten ∧
      t.taken = s.taken ++ s.port ∧ t.port = []

/-- 70_reset_and_hazards.md R194, R196: after a reset an ENC raises NotConfigured, every other command executes, and after
a CFG an ENC succeeds with a train that starts at id 0. -/
def Obligations.BootOrder : Prop :=
  ∀ s : State, s.rst = true → ∃ u, step s = .next u ∧
    (∀ i, isEnc i = true → ∃ t, exec i u = .next t ∧ t.port = [.response ⟨.notConfigured, 0⟩]) ∧
    (∀ i, isEnc i = false → ∃ t v, exec i u = .next t ∧ t.port = [.response ⟨.ok, v⟩]) ∧
    (∀ (swid : Byte) (we : Endian) (r v t : Bool) (len : Word) (buf : List Byte), buf.length = len.toNat →
      ∃ c e f frames n, exec (.cfg swid we) u = .next c ∧ exec (.enc r v t len buf) c = .next e ∧
        e.port = c.port ++ [.train (f :: frames), .response ⟨.ok, n⟩] ∧ frameId f = [0, 0])

/-! ### Invariants -/

/-- Every step keeps what holds of a conforming block: SWAP is HOST_ENDIAN != WE (R121), the registers a CFG writes keep
their reset values until one executes (R24 to R28), the block is not FAULTED (R173), and every train and response it
presents keeps the constraints of R82, R146 and R176. -/
def Obligations.EveryStepKeepsConformance : Prop :=
  ∀ s t : State, Conforming s → step s = .next t → Conforming t

/-- The reset state of either HOST_ENDIAN meets that invariant, and so does the state `State.reset`. -/
def Obligations.ResetStateConforms : Prop :=
  (∀ h : Endian, Conforming (State.resetFor h)) ∧ Conforming State.reset

/-- 70_reset_and_hazards.md R200, 10_state.md R32: a whole command that a host issues behind nothing is executed, and its
one response reaches a host that accepts output. That this takes exactly one step is the model's: the step that finds a
complete command runs it (log entry 15, DEDUCED; R202 says only eventually), and all its output is delivered within that
step (log entry 6, DEDUCED). -/
def Obligations.IssuedCommandIsAnswered : Prop :=
  ∀ (i : Instr) (s : State), wellFormed i = true → s.rst = false → s.port = [] → s.ready = true → s.cmdIn = [] →
    s.dataIn = [] → ∃ t r, step (issue i s) = .next t ∧ t.cmdIn = [] ∧ t.dataIn = [] ∧ t.port = [] ∧
      responsesOf t.taken = responsesOf s.taken ++ [r]

/-! ### Runs -/

/-- 70_reset_and_hazards.md R201: a run of complete commands, legal or illegal, has ended exactly when every command is
executed and all output delivered; its observation then holds one response for each command and does not depend on when
the host accepts output; and a run with a command still incomplete never ends. That each step in which the host accepts
output delivers the output of one command is the model's (log entries 6, 15 and 18, DEDUCED). -/
def Obligations.RunsEndWithOneObservation : Prop :=
  (∀ (cs : List Command) (accepts : List Bool) (s : State), (∀ c ∈ cs, isComplete c = true) → s.rst = false →
    s.port = [] → s.cmdIn = [] → s.dataIn = [] →
    if accepts.count true < cs.length then observeRun accepts cs s = none
    else ∃ o, observeRun accepts cs s = some o ∧ observeRun (List.replicate cs.length true) cs s = some o ∧
      o.responses.length = cs.length) ∧
  (∀ (cs : List Command) (c : Command) (accepts : List Bool) (s : State), (∀ b ∈ cs, isComplete b = true) →
    s.rst = false → s.port = [] → s.cmdIn = [] → s.dataIn = [] → c.words ≠ [] →
    readCommand c.words c.bytes = .incomplete → observeRun accepts (cs ++ [c]) s = none)

/-- 41_generator_config.md R125, 70_reset_and_hazards.md R201: in the observation of a run that a CFG opens, with any
complete commands behind it that are no CFG, illegal ones too, the frames carry the ids 0, 1, 2, ... modulo 2^16, and SEQ
is their number modulo 2^16. That the run has ended after so many steps in which the host accepts output is the model's
(log entries 6, 15 and 18, DEDUCED). -/
def Obligations.ObservedSessionsAreNumberedFromZero : Prop :=
  ∀ (swid : Byte) (we : Endian) (cs : List Command) (accepts : List Bool) (s : State),
    (∀ c ∈ cs, isComplete c = true ∧ ∀ id e, c ≠ commandOf (.cfg id e)) → s.errInv = false → s.rst = false →
    s.port = [] → s.cmdIn = [] → s.dataIn = [] → cs.length < accepts.count true →
    ∃ o, observeRun accepts (commandOf (.cfg swid we) :: cs) s = some o ∧
      o.registers.seq = BitVec.ofNat 16 o.trains.flatten.length ∧
      ∀ k f, o.trains.flatten[k]? = some f → frameId f = e16 (BitVec.ofNat 16 k) (decide (s.hostEndian ≠ we))
end

