-- ==== Sys2Proof/Laws/Bits.lean ====
section
/-! SUPPORT. The bit-field values of the model as numbers: concatenations become sums, fields become quotients and
remainders, so that `omega` closes the rest. -/

namespace Sys2Proof

/-- A concatenation `{x, y}` (00_scope.md R12) as a number. -/
theorem toNat_concat {n m : Nat} (x : BitVec n) (y : BitVec m) : (x ++ y).toNat = x.toNat * 2 ^ m + y.toNat := by
  rw [BitVec.toNat_append, ← Nat.shiftLeft_add_eq_or_of_lt y.isLt, Nat.shiftLeft_eq]

theorem toNat_field {n : Nat} (x : BitVec n) (lo w : Nat) :
    (x.extractLsb' lo w).toNat = x.toNat / 2 ^ lo % 2 ^ w := by
  rw [BitVec.extractLsb'_toNat, Nat.shiftRight_eq_div_pow]

theorem getLsbD_toNat {n : Nat} (x : BitVec n) (i : Nat) : x.getLsbD i = decide (x.toNat / 2 ^ i % 2 = 1) := by
  rw [BitVec.getLsbD, Nat.testBit_eq_decide_div_mod_eq]

theorem toNat_getLsbD {n : Nat} (x : BitVec n) (i : Nat) : (x.getLsbD i).toNat = x.toNat / 2 ^ i % 2 := by
  rw [getLsbD_toNat]
  rcases Nat.mod_two_eq_zero_or_one (x.toNat / 2 ^ i) with h | h <;> simp [h]

theorem toNat_endianBit (e : Endian) : (endianBit e).toNat = if e = .big then 1 else 0 := by
  cases e <;> rfl

theorem toNat_bit (b : Bool) : (BitVec.ofBool b).toNat = b.toNat := by cases b <;> rfl

/-- Two 8-bit fields side by side in 16 bits. -/
theorem toNat_pair (a b : Byte) : (a ++ b : Half).toNat = a.toNat * 2 ^ 8 + b.toNat := toNat_concat a b

/-- Four 8-bit fields side by side in 32 bits. -/
theorem toNat_quad (a b c d : Byte) :
    (a ++ b ++ c ++ d : Word).toNat = ((a.toNat * 2 ^ 8 + b.toNat) * 2 ^ 8 + c.toNat) * 2 ^ 8 + d.toNat := by
  have h : (a ++ b ++ c ++ d : BitVec (8 + 8 + 8 + 8)).toNat =
      ((a.toNat * 2 ^ 8 + b.toNat) * 2 ^ 8 + c.toNat) * 2 ^ 8 + d.toNat := by
    simp only [toNat_concat]
  exact h

/-- Word 0 of each instruction, as the sum of its opcode number and its fields (30_encoding.md R63 to R70). -/
def wordZero : Instr → Nat
  | .cfg swid we => 0x01000000 + (if we = .big then 1 else 0) * 2 ^ 8 + swid.toNat
  | .enc r v t _ _ => 0x02000000 + t.toNat * 4 + v.toNat * 2 + r.toNat
  | .stat => 0x03000000
  | .hostend => 0x10000000
  | .swap16 x => 0x11000000 + x.toNat
  | .swap32 _ => 0x12000000
  | .comp16 b0 b1 s => 0x13000000 + s.toNat * 2 ^ 16 + b1.toNat * 2 ^ 8 + b0.toNat
  | .comp32 _ _ _ _ s => 0x14000000 + s.toNat
  | .rdbit b pos => 0x15000000 + pos.toNat * 2 ^ 8 + b.toNat

theorem wordZero_cfg (swid : Byte) (we : Endian) :
    (0x01#8 ++ 0#15 ++ endianBit we ++ swid : BitVec (8 + 15 + 1 + 8)).toNat = wordZero (.cfg swid we) := by
  simp only [toNat_concat, toNat_endianBit, wordZero, BitVec.toNat_ofNat]; omega

theorem wordZero_enc (r v t : Bool) (len : Word) (buf : List Byte) :
    (0x02#8 ++ 0#21 ++ BitVec.ofBool t ++ BitVec.ofBool v ++ BitVec.ofBool r : BitVec (8 + 21 + 1 + 1 + 1)).toNat =
      wordZero (.enc r v t len buf) := by
  simp only [toNat_concat, toNat_bit, wordZero, BitVec.toNat_ofNat]; omega

theorem wordZero_swap16 (x : Half) : (0x11#8 ++ 0#8 ++ x : BitVec (8 + 8 + 16)).toNat = wordZero (.swap16 x) := by
  simp only [toNat_concat, wordZero, BitVec.toNat_ofNat]; omega

theorem wordZero_comp16 (b0 b1 : Byte) (s : Bool) :
    (0x13#8 ++ 0#7 ++ BitVec.ofBool s ++ b1 ++ b0 : BitVec (8 + 7 + 1 + 8 + 8)).toNat =
      wordZero (.comp16 b0 b1 s) := by
  simp only [toNat_concat, toNat_bit, wordZero, BitVec.toNat_ofNat]; omega

theorem wordZero_comp32 (b0 b1 b2 b3 : Byte) (s : Bool) :
    (0x14#8 ++ 0#23 ++ BitVec.ofBool s : BitVec (8 + 23 + 1)).toNat = wordZero (.comp32 b0 b1 b2 b3 s) := by
  simp only [toNat_concat, toNat_bit, wordZero, BitVec.toNat_ofNat]; omega

theorem wordZero_rdbit (b : Byte) (pos : BitVec 3) :
    (0x15#8 ++ 0#13 ++ pos ++ b : BitVec (8 + 13 + 3 + 8)).toNat = wordZero (.rdbit b pos) := by
  simp only [toNat_concat, wordZero, BitVec.toNat_ofNat]; omega

/-- The first word of every instruction is its `wordZero`. -/
theorem encodeWords_wordZero (i : Instr) : ∃ w ws, encodeWords i = w :: ws ∧ w.toNat = wordZero i := by
  cases i with
  | cfg swid we => exact ⟨_, _, rfl, wordZero_cfg swid we⟩
  | enc r v t len buf => exact ⟨_, _, rfl, wordZero_enc r v t len buf⟩
  | stat => exact ⟨_, _, rfl, rfl⟩
  | hostend => exact ⟨_, _, rfl, rfl⟩
  | swap16 x => exact ⟨_, _, rfl, wordZero_swap16 x⟩
  | swap32 x => exact ⟨_, _, rfl, rfl⟩
  | comp16 b0 b1 s => exact ⟨_, _, rfl, wordZero_comp16 b0 b1 s⟩
  | comp32 b0 b1 b2 b3 s => exact ⟨_, _, rfl, wordZero_comp32 b0 b1 b2 b3 s⟩
  | rdbit b pos => exact ⟨_, _, rfl, wordZero_rdbit b pos⟩

namespace Machine

theorem toNat_swap16 (x : Half) : (swap16 x).toNat = x.toNat % 2 ^ 8 * 2 ^ 8 + x.toNat / 2 ^ 8 % 2 ^ 8 := by
  simp only [swap16, toNat_pair, byteOf, toNat_field]; norm_num

theorem toNat_swap32 (x : Word) : (swap32 x).toNat =
    ((x.toNat % 2 ^ 8 * 2 ^ 8 + x.toNat / 2 ^ 8 % 2 ^ 8) * 2 ^ 8 + x.toNat / 2 ^ 16 % 2 ^ 8) * 2 ^ 8 +
      x.toNat / 2 ^ 24 % 2 ^ 8 := by
  simp only [swap32, toNat_quad, byteOf, toNat_field]; norm_num

/-- The status word (10_state.md R38) as the sum of its fields. -/
theorem toNat_statusWord (s : State) : (statusWord s).toNat =
    s.errInv.toNat * 2 ^ 30 + s.errNcfg.toNat * 2 ^ 29 + s.errIll.toNat * 2 ^ 28 + s.cfgd.toNat * 2 ^ 27 +
      (if s.hostEndian = .big then 1 else 0) * 2 ^ 26 + s.swap.toNat * 2 ^ 25 +
      (if s.we = .big then 1 else 0) * 2 ^ 24 + s.swid.toNat * 2 ^ 16 + s.seq.toNat := by
  have h : (0#1 ++ BitVec.ofBool s.errInv ++ BitVec.ofBool s.errNcfg ++ BitVec.ofBool s.errIll ++
      BitVec.ofBool s.cfgd ++ endianBit s.hostEndian ++ BitVec.ofBool s.swap ++ endianBit s.we ++ s.swid ++ s.seq :
      BitVec (1 + 1 + 1 + 1 + 1 + 1 + 1 + 1 + 8 + 16)).toNat = (statusWord s).toNat := rfl
  rw [← h]
  simp only [toNat_concat, toNat_bit, toNat_endianBit, BitVec.toNat_ofNat]
  omega

end Machine

end Sys2Proof
end

