-- ==== Sys2Proof/Laws/PerInstr.lean ====
section
/-! SUPPORT. Statements made once for each instruction, about its syntax and encoding. -/

namespace Sys2Proof.Laws

/-- The opcode of an instruction (30_encoding.md R62). -/
def opcodeFor : Instr → Opcode
  | .cfg _ _ => .cfg
  | .enc _ _ _ _ _ => .enc
  | .stat => .stat
  | .hostend => .hostend
  | .swap16 _ => .swap16
  | .swap32 _ => .swap32
  | .comp16 _ _ _ => .comp16
  | .comp32 _ _ _ _ _ => .comp32
  | .rdbit _ _ => .rdbit

/-- Word 0 of an instruction's encoding carries its opcode (R62) and clear reserved bits (R63 to R70), and the encoding
has as many words as that opcode fixes (R61). -/
def EncodedForm.Statement (i : Instr) : Prop :=
  ∃ w ws, encodeWords i = w :: ws ∧ w.toNat = wordZero i ∧ opcField w = opcodeNumber (opcodeFor i) ∧
    reservedClear (opcodeFor i) w = true ∧ ws.length + 1 = commandWords (opcField w)

/-- A field of a word whose value is known, by arithmetic. -/
theorem field_of_toNat {w : Word} {n : Nat} (h : w.toNat = n) (lo k : Nat) (v : BitVec k)
    (hv : n / 2 ^ lo % 2 ^ k = v.toNat) : w.extractLsb' lo k = v := by
  apply BitVec.eq_of_toNat_eq
  rw [toNat_field, h, hv]

theorem EncodedForm.cfg (swid : Byte) (we : Endian) : EncodedForm.Statement (.cfg swid we) := by
  have hs := swid.isLt
  have hw : (if we = .big then 1 else 0 : Nat) ≤ 1 := by split <;> omega
  have h := wordZero_cfg swid we
  have ho : opcField (0x01#8 ++ 0#15 ++ endianBit we ++ swid) = 0x01 :=
    field_of_toNat h _ _ _ (by simp only [wordZero, BitVec.toNat_ofNat, BitVec.ofNat_eq_ofNat]; omega)
  exact ⟨_, _, rfl, h, ho,
    beq_iff_eq.mpr (field_of_toNat h _ _ _ (by simp only [wordZero, BitVec.toNat_ofNat, BitVec.ofNat_eq_ofNat]; omega)),
    by rw [ho]; rfl⟩

theorem EncodedForm.enc (r v t : Bool) (len : Word) (buf : List Byte) :
    EncodedForm.Statement (.enc r v t len buf) := by
  have hr := r.toNat_le
  have hv := v.toNat_le
  have ht := t.toNat_le
  have h := wordZero_enc r v t len buf
  have ho : opcField (0x02#8 ++ 0#21 ++ BitVec.ofBool t ++ BitVec.ofBool v ++ BitVec.ofBool r) = 0x02 :=
    field_of_toNat h _ _ _ (by simp only [wordZero, BitVec.toNat_ofNat, BitVec.ofNat_eq_ofNat]; omega)
  exact ⟨_, _, rfl, h, ho,
    beq_iff_eq.mpr (field_of_toNat h _ _ _ (by simp only [wordZero, BitVec.toNat_ofNat, BitVec.ofNat_eq_ofNat]; omega)),
    by rw [ho]; rfl⟩

theorem EncodedForm.stat : EncodedForm.Statement .stat := ⟨_, _, rfl, rfl, rfl, rfl, rfl⟩

theorem EncodedForm.hostend : EncodedForm.Statement .hostend := ⟨_, _, rfl, rfl, rfl, rfl, rfl⟩

theorem EncodedForm.swap16 (x : Half) : EncodedForm.Statement (.swap16 x) := by
  have hx := x.isLt
  have h := wordZero_swap16 x
  have ho : opcField (0x11#8 ++ 0#8 ++ x) = 0x11 :=
    field_of_toNat h _ _ _ (by simp only [wordZero, BitVec.toNat_ofNat, BitVec.ofNat_eq_ofNat]; omega)
  exact ⟨_, _, rfl, h, ho,
    beq_iff_eq.mpr (field_of_toNat h _ _ _ (by simp only [wordZero, BitVec.toNat_ofNat, BitVec.ofNat_eq_ofNat]; omega)),
    by rw [ho]; rfl⟩

theorem EncodedForm.swap32 (x : Word) : EncodedForm.Statement (.swap32 x) := ⟨_, _, rfl, rfl, rfl, rfl, rfl⟩

theorem EncodedForm.comp16 (b0 b1 : Byte) (swap : Bool) : EncodedForm.Statement (.comp16 b0 b1 swap) := by
  have h0 := b0.isLt
  have h1 := b1.isLt
  have hs := swap.toNat_le
  have h := wordZero_comp16 b0 b1 swap
  have ho : opcField (0x13#8 ++ 0#7 ++ BitVec.ofBool swap ++ b1 ++ b0) = 0x13 :=
    field_of_toNat h _ _ _ (by simp only [wordZero, BitVec.toNat_ofNat, BitVec.ofNat_eq_ofNat]; omega)
  exact ⟨_, _, rfl, h, ho,
    beq_iff_eq.mpr (field_of_toNat h _ _ _ (by simp only [wordZero, BitVec.toNat_ofNat, BitVec.ofNat_eq_ofNat]; omega)),
    by rw [ho]; rfl⟩

theorem EncodedForm.comp32 (b0 b1 b2 b3 : Byte) (swap : Bool) : EncodedForm.Statement (.comp32 b0 b1 b2 b3 swap) := by
  have hs := swap.toNat_le
  have h := wordZero_comp32 b0 b1 b2 b3 swap
  have ho : opcField (0x14#8 ++ 0#23 ++ BitVec.ofBool swap) = 0x14 :=
    field_of_toNat h _ _ _ (by simp only [wordZero, BitVec.toNat_ofNat, BitVec.ofNat_eq_ofNat]; omega)
  exact ⟨_, _, rfl, h, ho,
    beq_iff_eq.mpr (field_of_toNat h _ _ _ (by simp only [wordZero, BitVec.toNat_ofNat, BitVec.ofNat_eq_ofNat]; omega)),
    by rw [ho]; rfl⟩

theorem EncodedForm.rdbit (b : Byte) (pos : BitVec 3) : EncodedForm.Statement (.rdbit b pos) := by
  have hb := b.isLt
  have hp := pos.isLt
  have h := wordZero_rdbit b pos
  have ho : opcField (0x15#8 ++ 0#13 ++ pos ++ b) = 0x15 :=
    field_of_toNat h _ _ _ (by simp only [wordZero, BitVec.toNat_ofNat, BitVec.ofNat_eq_ofNat]; omega)
  exact ⟨_, _, rfl, h, ho,
    beq_iff_eq.mpr (field_of_toNat h _ _ _ (by simp only [wordZero, BitVec.toNat_ofNat, BitVec.ofNat_eq_ofNat]; omega)),
    by rw [ho]; rfl⟩

end Sys2Proof.Laws
end

