-- ==== Sys2Proof/Laws/Decode.lean ====
section
/-! SUPPORT. What the decoder answers: the opcode map both ways, and the reading of a complete command from its opcode. -/

namespace Sys2Proof

theorem opcodeOf_opcodeNumber (op : Opcode) : opcodeOf (opcodeNumber op) = some op := by cases op <;> decide

/-- An opcode is read only from its own number (30_encoding.md R62). -/
theorem opcodeOf_eq_some {n : Byte} {op : Opcode} (h : opcodeOf n = some op) : n = opcodeNumber op := by
  unfold opcodeOf at h
  repeat' split at h
  all_goals first
    | (obtain rfl := Option.some.inj h; assumption)
    | exact absurd h (by simp)

/-- A complete command with an assigned opcode and clear reserved bits is legal (R72). -/
theorem judge_legal {w0 : Word} {op : Opcode} (hop : opcField w0 = opcodeNumber op) (hres : reservedClear op w0 = true)
    (w1 : Word) (buf : List Byte) (ws : List Word) (ds : List Byte) :
    judge w0 w1 buf ws ds = .command (operandsOf op w0 w1 buf) ws ds := by
  simp [judge, decodeCommand, hop, opcodeOf_opcodeNumber, hres]

/-- A complete command with an assigned opcode and a reserved bit set is illegal (R72 b). -/
theorem judge_reservedBits {w0 : Word} {op : Opcode} (hop : opcField w0 = opcodeNumber op)
    (hres : reservedClear op w0 = false) (w1 : Word) (buf : List Byte) (ws : List Word) (ds : List Byte) :
    judge w0 w1 buf ws ds = .illegal .reservedBits ws ds := by
  simp [judge, decodeCommand, hop, opcodeOf_opcodeNumber, hres]

/-- A complete command with an unassigned opcode is illegal (R72 a). -/
theorem judge_unassigned {w0 : Word} (hop : opcodeOf (opcField w0) = none) (w1 : Word) (buf : List Byte)
    (ws : List Word) (ds : List Byte) : judge w0 w1 buf ws ds = .illegal .unassignedOpcode ws ds := by
  simp [judge, decodeCommand, hop]

/-- A legal reading names its opcode, its clear reserved bits and its operands. -/
theorem judge_eq_command {w0 w1 : Word} {buf : List Byte} {ws ws' : List Word} {ds ds' : List Byte} {i : Instr}
    (h : judge w0 w1 buf ws ds = .command i ws' ds') :
    ∃ op, opcField w0 = opcodeNumber op ∧ reservedClear op w0 = true ∧ i = operandsOf op w0 w1 buf ∧ ws' = ws ∧
      ds' = ds := by
  unfold judge decodeCommand at h
  cases hop : opcodeOf (opcField w0) with
  | none => simp [hop] at h
  | some op =>
    cases hres : reservedClear op w0 with
    | false => simp [hop, hres] at h
    | true =>
      simp [hop, hres] at h
      exact ⟨op, opcodeOf_eq_some hop, hres, h.1.symm, h.2.1.symm, h.2.2.symm⟩

/-- Reading a one-word command (R61). -/
theorem readCommand_one_word {w0 : Word} (h : commandWords (opcField w0) = 1) (ws : List Word) (ds : List Byte) :
    readCommand (w0 :: ws) ds = judge w0 0 [] ws ds := by
  simp [readCommand, h]

/-- Reading a two-word command whose data bytes have arrived (R61, R65). -/
theorem readCommand_two_words {w0 w1 : Word} {ds : List Byte} (h : commandWords (opcField w0) = 2)
    (hd : commandBytes (opcField w0) w1 ≤ ds.length) (ws : List Word) :
    readCommand (w0 :: w1 :: ws) ds = judge w0 w1 (ds.take (commandBytes (opcField w0) w1)) ws
      (ds.drop (commandBytes (opcField w0) w1)) := by
  simp [readCommand, h, Nat.not_lt.mpr hd]

theorem commandWords_cases (opc : Byte) : commandWords opc = 1 ∨ commandWords opc = 2 := by
  unfold commandWords
  repeat' split
  all_goals simp

end Sys2Proof
end

