-- ==== Sys2Proof/Laws/Encode.lean ====
section
/-! SUPPORT. What the packet_framer and the payload_chunker compute: the loop of 42_encode.md R140 in closed form, and the
train of an ENC whose data bytes have all arrived. -/

namespace Sys2Proof.Machine

theorem ceilDiv_zero : ceilDiv 0 59 = 0 := rfl

theorem ceilDiv_one_chunk {rem : Nat} (h0 : rem ≠ 0) (h : rem ≤ 59) : ceilDiv rem 59 = 1 := by
  unfold ceilDiv; omega

theorem ceilDiv_more_chunks {rem : Nat} (h : 59 < rem) : ceilDiv rem 59 = ceilDiv (rem - 59) 59 + 1 := by
  unfold ceilDiv; omega

theorem memRead_within {buf : List Byte} {a n : Nat} (h : a + n ≤ buf.length) :
    memRead buf a n = some ((buf.drop a).take n) := by
  simp [memRead, h]

theorem memRead_outside {buf : List Byte} {a n : Nat} (h : buf.length < a + n) : memRead buf a n = none := by
  simp [memRead, h]

@[simp] theorem consume_id (c : Half) : (consume c).1 = c := rfl

@[simp] theorem consume_counter (c : Half) : (consume c).2 = c + 1 := rfl

theorem counter_add_one (c : Half) (j : Nat) : c + 1#16 + BitVec.ofNat 16 j = c + BitVec.ofNat 16 (j + 1) := by
  rw [BitVec.add_assoc, ← BitVec.ofNat_add, Nat.add_comm]

theorem dataFrames_nothing_left (swid : Byte) (swap : Bool) (buf : List Byte) (fuel : Nat) (c : Half) (off : Nat) :
    dataFrames swid swap buf fuel c off 0 = .ok ([], c) := by
  cases fuel <;> simp [dataFrames]

/-- The loop from any point at which the two counters agree (R153): no check fails, and turn `j` emits the Data frame of
the next 59 bytes or of what is left. -/
theorem dataFrames_closed_form (swid : Byte) (swap : Bool) (buf : List Byte) (fuel : Nat) :
    ∀ (c : Half) (off rem : Nat), off + rem = buf.length → rem ≤ fuel →
    dataFrames swid swap buf fuel c off rem =
      .ok ((List.range (ceilDiv rem 59)).map (fun j => dataFrame swid swap (c + BitVec.ofNat 16 j)
          ((buf.drop (off + 59 * j)).take 59).length ((buf.drop (off + 59 * j)).take 59)),
        c + BitVec.ofNat 16 (ceilDiv rem 59)) := by
  induction fuel with
  | zero =>
    intro c off rem _ hr
    obtain rfl : rem = 0 := by omega
    simp [dataFrames, ceilDiv_zero]
  | succ fuel ih =>
    intro c off rem hoff hr
    rcases Nat.eq_zero_or_pos rem with rfl | hpos
    · simp [dataFrames, ceilDiv_zero]
    · rcases Nat.lt_or_ge 59 rem with hbig | hsmall
      · have hn : min Config.maxChunk rem = 59 := by simp [Config.maxChunk]; omega
        have hih := ih (c + 1) (off + 59) (rem - 59) (by omega) (by omega)
        have hlen : ((buf.drop off).take 59).length = 59 := by simp; omega
        simp only [dataFrames, Nat.ne_of_gt hpos, if_false, hn]
        rw [memRead_within (by omega)]
        simp only [Config.maxChunk, consume, hih, ceilDiv_more_chunks hbig, List.range_succ_eq_map, List.map_cons,
          List.map_map]
        simp [counter_add_one, hlen, Function.comp_def, Nat.mul_add, Nat.add_assoc, Nat.add_comm 59]
      · have hn : min Config.maxChunk rem = rem := by simp [Config.maxChunk]; omega
        have hlen : (buf.drop off).length = rem := by simp; omega
        have htake : (buf.drop off).take 59 = (buf.drop off).take rem := by
          rw [List.take_of_length_le (by omega), List.take_of_length_le (by omega)]
        have h59 : rem ≤ Config.maxChunk := hsmall
        simp only [dataFrames, Nat.ne_of_gt hpos, if_false, hn]
        rw [memRead_within (by omega)]
        simp only [h59, Nat.succ_le_of_lt hpos, and_self, if_true, Nat.sub_self, dataFrames_nothing_left,
          ceilDiv_one_chunk (Nat.ne_of_gt hpos) hsmall]
        simp [htake]
        congr 2
        omega

/-- A Data frame is the spec's Data frame of its chunk. -/
theorem dataFrame_spec (swid : Byte) (swap : Bool) (id : Half) (buf : List Byte) (j : Nat) :
    dataFrame swid swap id (specChunk buf j).length (specChunk buf j) = specData swid swap id buf j := by
  cases swap <;> rfl

theorem startFrame_spec (swid : Byte) (swap : Bool) (id : Half) (len : Word) :
    startFrame swid swap id len = specStart swid swap id len := by
  cases swap <;> rfl

theorem stopFrame_spec (swid : Byte) (swap : Bool) (id : Half) (flags : Byte) :
    stopFrame swid swap id flags = specHeader swid swap id 3 ++ [flags] := by
  cases swap <;> rfl

theorem packFlags_spec (r v t : Bool) : packFlags r v t = specFlags r v t := by
  cases r <;> cases v <;> cases t <;> rfl

theorem specTrain_length (s : State) (r v t : Bool) (len : Word) (buf : List Byte) :
    (specTrain s r v t len buf).length = 2 + specChunks buf.length := by
  simp [specTrain]; omega

/-- The train of an ENC with its LEN data bytes is the closed form (R140 to R146), and the counter after it is past one id
for each frame: no check of R148, R149 or R41 fails. -/
theorem encodeTrain_closed_form (s : State) (r v t : Bool) (len : Word) (buf : List Byte)
    (h : buf.length = len.toNat) :
    encodeTrain s.swid s.swap s.seq (packFlags r v t) len buf =
      .ok (specTrain s r v t len buf, s.seq + BitVec.ofNat 16 (2 + specChunks len.toNat)) := by
  unfold encodeTrain
  rw [dataFrames_closed_form _ _ _ _ _ _ _ (by omega) (Nat.le_refl _)]
  have hlen := specTrain_length s r v t len buf
  have htrain : startFrame s.swid s.swap (consume s.seq).1 len ::
      (List.range (ceilDiv len.toNat 59)).map (fun j => dataFrame s.swid s.swap
          ((consume s.seq).2 + BitVec.ofNat 16 j)
          ((buf.drop (0 + 59 * j)).take 59).length ((buf.drop (0 + 59 * j)).take 59)) ++
        [stopFrame s.swid s.swap (consume ((consume s.seq).2 + BitVec.ofNat 16 (ceilDiv len.toNat 59))).1
          (packFlags r v t)] =
      specTrain s r v t len buf := by
    simp only [consume_id, consume_counter, Nat.zero_add, startFrame_spec, stopFrame_spec, packFlags_spec, specTrain,
      specChunks, h, BitVec.ofNat_eq_ofNat, counter_add_one, Nat.add_comm 1]
    congr 2
    exact List.map_congr_left fun j _ => dataFrame_spec ..
  dsimp only
  rw [htrain, if_pos (by rw [hlen, h]; rfl)]
  have hc : s.seq + 1 + BitVec.ofNat 16 (ceilDiv len.toNat 59) + 1 =
      s.seq + BitVec.ofNat 16 (2 + specChunks len.toNat) := by
    rw [BitVec.ofNat_eq_ofNat, counter_add_one, BitVec.add_assoc, ← BitVec.ofNat_add]
    have hk : ceilDiv len.toNat 59 + 1 + 1 = 2 + specChunks len.toNat := by
      rw [specChunks, Nat.add_comm 2]
    rw [hk]
  exact congrArg (fun c => Except.ok (specTrain s r v t len buf, c)) hc

end Sys2Proof.Machine
end

