-- ==== Sys2Proof/Laws/State.lean ====
section
/-! SUPPORT. One lemma for each field of the state and each update that the model makes of it. -/

namespace Sys2Proof.Machine

/-! `present` -/
@[simp] theorem present_seq (out : List Output) (s : State) : (present out s).seq = s.seq := rfl
@[simp] theorem present_swid (out : List Output) (s : State) : (present out s).swid = s.swid := rfl
@[simp] theorem present_we (out : List Output) (s : State) : (present out s).we = s.we := rfl
@[simp] theorem present_swap (out : List Output) (s : State) : (present out s).swap = s.swap := rfl
@[simp] theorem present_cfgd (out : List Output) (s : State) : (present out s).cfgd = s.cfgd := rfl
@[simp] theorem present_errIll (out : List Output) (s : State) : (present out s).errIll = s.errIll := rfl
@[simp] theorem present_errNcfg (out : List Output) (s : State) : (present out s).errNcfg = s.errNcfg := rfl
@[simp] theorem present_errInv (out : List Output) (s : State) : (present out s).errInv = s.errInv := rfl
@[simp] theorem present_hostEndian (out : List Output) (s : State) : (present out s).hostEndian = s.hostEndian := rfl
@[simp] theorem present_cmdIn (out : List Output) (s : State) : (present out s).cmdIn = s.cmdIn := rfl
@[simp] theorem present_dataIn (out : List Output) (s : State) : (present out s).dataIn = s.dataIn := rfl
@[simp] theorem present_rst (out : List Output) (s : State) : (present out s).rst = s.rst := rfl
@[simp] theorem present_ready (out : List Output) (s : State) : (present out s).ready = s.ready := rfl
@[simp] theorem present_port (out : List Output) (s : State) : (present out s).port = s.port ++ out := rfl
@[simp] theorem present_taken (out : List Output) (s : State) : (present out s).taken = s.taken := rfl
/-! `respond` -/
@[simp] theorem respond_seq (st : Status) (v : Word) (s : State) : (respond st v s).seq = s.seq := rfl
@[simp] theorem respond_swid (st : Status) (v : Word) (s : State) : (respond st v s).swid = s.swid := rfl
@[simp] theorem respond_we (st : Status) (v : Word) (s : State) : (respond st v s).we = s.we := rfl
@[simp] theorem respond_swap (st : Status) (v : Word) (s : State) : (respond st v s).swap = s.swap := rfl
@[simp] theorem respond_cfgd (st : Status) (v : Word) (s : State) : (respond st v s).cfgd = s.cfgd := rfl
@[simp] theorem respond_errIll (st : Status) (v : Word) (s : State) : (respond st v s).errIll = s.errIll := rfl
@[simp] theorem respond_errNcfg (st : Status) (v : Word) (s : State) : (respond st v s).errNcfg = s.errNcfg := rfl
@[simp] theorem respond_errInv (st : Status) (v : Word) (s : State) : (respond st v s).errInv = s.errInv := rfl
@[simp] theorem respond_hostEndian (st : Status) (v : Word) (s : State) :
    (respond st v s).hostEndian = s.hostEndian :=
  rfl
@[simp] theorem respond_cmdIn (st : Status) (v : Word) (s : State) : (respond st v s).cmdIn = s.cmdIn := rfl
@[simp] theorem respond_dataIn (st : Status) (v : Word) (s : State) : (respond st v s).dataIn = s.dataIn := rfl
@[simp] theorem respond_rst (st : Status) (v : Word) (s : State) : (respond st v s).rst = s.rst := rfl
@[simp] theorem respond_ready (st : Status) (v : Word) (s : State) : (respond st v s).ready = s.ready := rfl
@[simp] theorem respond_port (st : Status) (v : Word) (s : State) :
    (respond st v s).port = s.port ++ [.response ⟨st, v⟩] :=
  rfl
@[simp] theorem respond_taken (st : Status) (v : Word) (s : State) : (respond st v s).taken = s.taken := rfl
/-! `respondOk` -/
@[simp] theorem respondOk_seq (v : Word) (s : State) : (respondOk v s).seq = s.seq := rfl
@[simp] theorem respondOk_swid (v : Word) (s : State) : (respondOk v s).swid = s.swid := rfl
@[simp] theorem respondOk_we (v : Word) (s : State) : (respondOk v s).we = s.we := rfl
@[simp] theorem respondOk_swap (v : Word) (s : State) : (respondOk v s).swap = s.swap := rfl
@[simp] theorem respondOk_cfgd (v : Word) (s : State) : (respondOk v s).cfgd = s.cfgd := rfl
@[simp] theorem respondOk_errIll (v : Word) (s : State) : (respondOk v s).errIll = s.errIll := rfl
@[simp] theorem respondOk_errNcfg (v : Word) (s : State) : (respondOk v s).errNcfg = s.errNcfg := rfl
@[simp] theorem respondOk_errInv (v : Word) (s : State) : (respondOk v s).errInv = s.errInv := rfl
@[simp] theorem respondOk_hostEndian (v : Word) (s : State) : (respondOk v s).hostEndian = s.hostEndian := rfl
@[simp] theorem respondOk_cmdIn (v : Word) (s : State) : (respondOk v s).cmdIn = s.cmdIn := rfl
@[simp] theorem respondOk_dataIn (v : Word) (s : State) : (respondOk v s).dataIn = s.dataIn := rfl
@[simp] theorem respondOk_rst (v : Word) (s : State) : (respondOk v s).rst = s.rst := rfl
@[simp] theorem respondOk_ready (v : Word) (s : State) : (respondOk v s).ready = s.ready := rfl
@[simp] theorem respondOk_port (v : Word) (s : State) : (respondOk v s).port = s.port ++ [.response ⟨.ok, v⟩] := rfl
@[simp] theorem respondOk_taken (v : Word) (s : State) : (respondOk v s).taken = s.taken := rfl
/-! `refuseFaulted` -/
@[simp] theorem refuseFaulted_seq (s : State) : (refuseFaulted s).seq = s.seq := rfl
@[simp] theorem refuseFaulted_swid (s : State) : (refuseFaulted s).swid = s.swid := rfl
@[simp] theorem refuseFaulted_we (s : State) : (refuseFaulted s).we = s.we := rfl
@[simp] theorem refuseFaulted_swap (s : State) : (refuseFaulted s).swap = s.swap := rfl
@[simp] theorem refuseFaulted_cfgd (s : State) : (refuseFaulted s).cfgd = s.cfgd := rfl
@[simp] theorem refuseFaulted_errIll (s : State) : (refuseFaulted s).errIll = s.errIll := rfl
@[simp] theorem refuseFaulted_errNcfg (s : State) : (refuseFaulted s).errNcfg = s.errNcfg := rfl
@[simp] theorem refuseFaulted_errInv (s : State) : (refuseFaulted s).errInv = s.errInv := rfl
@[simp] theorem refuseFaulted_hostEndian (s : State) : (refuseFaulted s).hostEndian = s.hostEndian := rfl
@[simp] theorem refuseFaulted_cmdIn (s : State) : (refuseFaulted s).cmdIn = s.cmdIn := rfl
@[simp] theorem refuseFaulted_dataIn (s : State) : (refuseFaulted s).dataIn = s.dataIn := rfl
@[simp] theorem refuseFaulted_rst (s : State) : (refuseFaulted s).rst = s.rst := rfl
@[simp] theorem refuseFaulted_ready (s : State) : (refuseFaulted s).ready = s.ready := rfl
@[simp] theorem refuseFaulted_port (s : State) : (refuseFaulted s).port = s.port ++ [.response ⟨.faulted, 0⟩] := rfl
@[simp] theorem refuseFaulted_taken (s : State) : (refuseFaulted s).taken = s.taken := rfl
/-! `setSticky` -/
@[simp] theorem setSticky_seq (e : ErrorCause) (s : State) : (setSticky e s).seq = s.seq :=
  by cases e <;> simp [setSticky]
@[simp] theorem setSticky_swid (e : ErrorCause) (s : State) : (setSticky e s).swid = s.swid :=
  by cases e <;> simp [setSticky]
@[simp] theorem setSticky_we (e : ErrorCause) (s : State) : (setSticky e s).we = s.we :=
  by cases e <;> simp [setSticky]
@[simp] theorem setSticky_swap (e : ErrorCause) (s : State) : (setSticky e s).swap = s.swap :=
  by cases e <;> simp [setSticky]
@[simp] theorem setSticky_cfgd (e : ErrorCause) (s : State) : (setSticky e s).cfgd = s.cfgd :=
  by cases e <;> simp [setSticky]
@[simp] theorem setSticky_errIll (e : ErrorCause) (s : State) :
    (setSticky e s).errIll = (s.errIll || e == .illegalCommand) :=
  by cases e <;> simp [setSticky]
@[simp] theorem setSticky_errNcfg (e : ErrorCause) (s : State) :
    (setSticky e s).errNcfg = (s.errNcfg || e == .notConfigured) :=
  by cases e <;> simp [setSticky]
@[simp] theorem setSticky_errInv (e : ErrorCause) (s : State) :
    (setSticky e s).errInv = (s.errInv || e == .invariantFault) :=
  by cases e <;> simp [setSticky]
@[simp] theorem setSticky_hostEndian (e : ErrorCause) (s : State) : (setSticky e s).hostEndian = s.hostEndian :=
  by cases e <;> simp [setSticky]
@[simp] theorem setSticky_cmdIn (e : ErrorCause) (s : State) : (setSticky e s).cmdIn = s.cmdIn :=
  by cases e <;> simp [setSticky]
@[simp] theorem setSticky_dataIn (e : ErrorCause) (s : State) : (setSticky e s).dataIn = s.dataIn :=
  by cases e <;> simp [setSticky]
@[simp] theorem setSticky_rst (e : ErrorCause) (s : State) : (setSticky e s).rst = s.rst :=
  by cases e <;> simp [setSticky]
@[simp] theorem setSticky_ready (e : ErrorCause) (s : State) : (setSticky e s).ready = s.ready :=
  by cases e <;> simp [setSticky]
@[simp] theorem setSticky_port (e : ErrorCause) (s : State) : (setSticky e s).port = s.port :=
  by cases e <;> simp [setSticky]
@[simp] theorem setSticky_taken (e : ErrorCause) (s : State) : (setSticky e s).taken = s.taken :=
  by cases e <;> simp [setSticky]
/-! `raise` -/
@[simp] theorem raise_seq (e : ErrorCause) (s : State) : (raise e s).seq = s.seq := by simp [raise]
@[simp] theorem raise_swid (e : ErrorCause) (s : State) : (raise e s).swid = s.swid := by simp [raise]
@[simp] theorem raise_we (e : ErrorCause) (s : State) : (raise e s).we = s.we := by simp [raise]
@[simp] theorem raise_swap (e : ErrorCause) (s : State) : (raise e s).swap = s.swap := by simp [raise]
@[simp] theorem raise_cfgd (e : ErrorCause) (s : State) : (raise e s).cfgd = s.cfgd := by simp [raise]
@[simp] theorem raise_errIll (e : ErrorCause) (s : State) : (raise e s).errIll = (s.errIll || e == .illegalCommand) :=
  by simp [raise]
@[simp] theorem raise_errNcfg (e : ErrorCause) (s : State) :
    (raise e s).errNcfg = (s.errNcfg || e == .notConfigured) :=
  by simp [raise]
@[simp] theorem raise_errInv (e : ErrorCause) (s : State) : (raise e s).errInv = (s.errInv || e == .invariantFault) :=
  by simp [raise]
@[simp] theorem raise_hostEndian (e : ErrorCause) (s : State) : (raise e s).hostEndian = s.hostEndian :=
  by simp [raise]
@[simp] theorem raise_cmdIn (e : ErrorCause) (s : State) : (raise e s).cmdIn = s.cmdIn := by simp [raise]
@[simp] theorem raise_dataIn (e : ErrorCause) (s : State) : (raise e s).dataIn = s.dataIn := by simp [raise]
@[simp] theorem raise_rst (e : ErrorCause) (s : State) : (raise e s).rst = s.rst := by simp [raise]
@[simp] theorem raise_ready (e : ErrorCause) (s : State) : (raise e s).ready = s.ready := by simp [raise]
@[simp] theorem raise_port (e : ErrorCause) (s : State) :
    (raise e s).port = s.port ++ [.response ⟨causeStatus e, 0⟩] :=
  by simp [raise]
@[simp] theorem raise_taken (e : ErrorCause) (s : State) : (raise e s).taken = s.taken := by simp [raise]
/-! `configure` -/
@[simp] theorem configure_seq (id : Byte) (e : Endian) (s : State) : (configure id e s).seq = 0 := rfl
@[simp] theorem configure_swid (id : Byte) (e : Endian) (s : State) : (configure id e s).swid = id := rfl
@[simp] theorem configure_we (id : Byte) (e : Endian) (s : State) : (configure id e s).we = e := rfl
@[simp] theorem configure_swap (id : Byte) (e : Endian) (s : State) :
    (configure id e s).swap = swapDecision s.hostEndian e :=
  rfl
@[simp] theorem configure_cfgd (id : Byte) (e : Endian) (s : State) : (configure id e s).cfgd = true := rfl
@[simp] theorem configure_errIll (id : Byte) (e : Endian) (s : State) : (configure id e s).errIll = s.errIll := rfl
@[simp] theorem configure_errNcfg (id : Byte) (e : Endian) (s : State) : (configure id e s).errNcfg = s.errNcfg :=
  rfl
@[simp] theorem configure_errInv (id : Byte) (e : Endian) (s : State) : (configure id e s).errInv = s.errInv := rfl
@[simp] theorem configure_hostEndian (id : Byte) (e : Endian) (s : State) :
    (configure id e s).hostEndian = s.hostEndian :=
  rfl
@[simp] theorem configure_cmdIn (id : Byte) (e : Endian) (s : State) : (configure id e s).cmdIn = s.cmdIn := rfl
@[simp] theorem configure_dataIn (id : Byte) (e : Endian) (s : State) : (configure id e s).dataIn = s.dataIn := rfl
@[simp] theorem configure_rst (id : Byte) (e : Endian) (s : State) : (configure id e s).rst = s.rst := rfl
@[simp] theorem configure_ready (id : Byte) (e : Endian) (s : State) : (configure id e s).ready = s.ready := rfl
@[simp] theorem configure_port (id : Byte) (e : Endian) (s : State) : (configure id e s).port = s.port := rfl
@[simp] theorem configure_taken (id : Byte) (e : Endian) (s : State) : (configure id e s).taken = s.taken := rfl
/-! `deliverTrain` -/
@[simp] theorem deliverTrain_seq (fs : List Frame) (c : Half) (s : State) : (deliverTrain fs c s).seq = c :=
  by simp [deliverTrain]
@[simp] theorem deliverTrain_swid (fs : List Frame) (c : Half) (s : State) : (deliverTrain fs c s).swid = s.swid :=
  by simp [deliverTrain]
@[simp] theorem deliverTrain_we (fs : List Frame) (c : Half) (s : State) : (deliverTrain fs c s).we = s.we :=
  by simp [deliverTrain]
@[simp] theorem deliverTrain_swap (fs : List Frame) (c : Half) (s : State) : (deliverTrain fs c s).swap = s.swap :=
  by simp [deliverTrain]
@[simp] theorem deliverTrain_cfgd (fs : List Frame) (c : Half) (s : State) : (deliverTrain fs c s).cfgd = s.cfgd :=
  by simp [deliverTrain]
@[simp] theorem deliverTrain_errIll (fs : List Frame) (c : Half) (s : State) :
    (deliverTrain fs c s).errIll = s.errIll :=
  by simp [deliverTrain]
@[simp] theorem deliverTrain_errNcfg (fs : List Frame) (c : Half) (s : State) :
    (deliverTrain fs c s).errNcfg = s.errNcfg :=
  by simp [deliverTrain]
@[simp] theorem deliverTrain_errInv (fs : List Frame) (c : Half) (s : State) :
    (deliverTrain fs c s).errInv = s.errInv :=
  by simp [deliverTrain]
@[simp] theorem deliverTrain_hostEndian (fs : List Frame) (c : Half) (s : State) :
    (deliverTrain fs c s).hostEndian = s.hostEndian :=
  by simp [deliverTrain]
@[simp] theorem deliverTrain_cmdIn (fs : List Frame) (c : Half) (s : State) : (deliverTrain fs c s).cmdIn = s.cmdIn :=
  by simp [deliverTrain]
@[simp] theorem deliverTrain_dataIn (fs : List Frame) (c : Half) (s : State) :
    (deliverTrain fs c s).dataIn = s.dataIn :=
  by simp [deliverTrain]
@[simp] theorem deliverTrain_rst (fs : List Frame) (c : Half) (s : State) : (deliverTrain fs c s).rst = s.rst :=
  by simp [deliverTrain]
@[simp] theorem deliverTrain_ready (fs : List Frame) (c : Half) (s : State) : (deliverTrain fs c s).ready = s.ready :=
  by simp [deliverTrain]
@[simp] theorem deliverTrain_port (fs : List Frame) (c : Half) (s : State) :
    (deliverTrain fs c s).port = s.port ++ [.train fs, .response ⟨.ok, BitVec.ofNat 32 fs.length⟩] :=
  by simp [deliverTrain]
@[simp] theorem deliverTrain_taken (fs : List Frame) (c : Half) (s : State) : (deliverTrain fs c s).taken = s.taken :=
  by simp [deliverTrain]
/-! `consumeInput` -/
@[simp] theorem consumeInput_seq (ws : List Word) (ds : List Byte) (s : State) : (consumeInput ws ds s).seq = s.seq :=
  rfl
@[simp] theorem consumeInput_swid (ws : List Word) (ds : List Byte) (s : State) :
    (consumeInput ws ds s).swid = s.swid :=
  rfl
@[simp] theorem consumeInput_we (ws : List Word) (ds : List Byte) (s : State) : (consumeInput ws ds s).we = s.we :=
  rfl
@[simp] theorem consumeInput_swap (ws : List Word) (ds : List Byte) (s : State) :
    (consumeInput ws ds s).swap = s.swap :=
  rfl
@[simp] theorem consumeInput_cfgd (ws : List Word) (ds : List Byte) (s : State) :
    (consumeInput ws ds s).cfgd = s.cfgd :=
  rfl
@[simp] theorem consumeInput_errIll (ws : List Word) (ds : List Byte) (s : State) :
    (consumeInput ws ds s).errIll = s.errIll :=
  rfl
@[simp] theorem consumeInput_errNcfg (ws : List Word) (ds : List Byte) (s : State) :
    (consumeInput ws ds s).errNcfg = s.errNcfg :=
  rfl
@[simp] theorem consumeInput_errInv (ws : List Word) (ds : List Byte) (s : State) :
    (consumeInput ws ds s).errInv = s.errInv :=
  rfl
@[simp] theorem consumeInput_hostEndian (ws : List Word) (ds : List Byte) (s : State) :
    (consumeInput ws ds s).hostEndian = s.hostEndian :=
  rfl
@[simp] theorem consumeInput_cmdIn (ws : List Word) (ds : List Byte) (s : State) :
    (consumeInput ws ds s).cmdIn = ws :=
  rfl
@[simp] theorem consumeInput_dataIn (ws : List Word) (ds : List Byte) (s : State) :
    (consumeInput ws ds s).dataIn = ds :=
  rfl
@[simp] theorem consumeInput_rst (ws : List Word) (ds : List Byte) (s : State) : (consumeInput ws ds s).rst = s.rst :=
  rfl
@[simp] theorem consumeInput_ready (ws : List Word) (ds : List Byte) (s : State) :
    (consumeInput ws ds s).ready = s.ready :=
  rfl
@[simp] theorem consumeInput_port (ws : List Word) (ds : List Byte) (s : State) :
    (consumeInput ws ds s).port = s.port :=
  rfl
@[simp] theorem consumeInput_taken (ws : List Word) (ds : List Byte) (s : State) :
    (consumeInput ws ds s).taken = s.taken :=
  rfl
/-! `accept` -/
@[simp] theorem accept_seq (s : State) : (accept s).seq = s.seq := by unfold accept; split <;> simp_all
@[simp] theorem accept_swid (s : State) : (accept s).swid = s.swid := by unfold accept; split <;> simp_all
@[simp] theorem accept_we (s : State) : (accept s).we = s.we := by unfold accept; split <;> simp_all
@[simp] theorem accept_swap (s : State) : (accept s).swap = s.swap := by unfold accept; split <;> simp_all
@[simp] theorem accept_cfgd (s : State) : (accept s).cfgd = s.cfgd := by unfold accept; split <;> simp_all
@[simp] theorem accept_errIll (s : State) : (accept s).errIll = s.errIll := by unfold accept; split <;> simp_all
@[simp] theorem accept_errNcfg (s : State) : (accept s).errNcfg = s.errNcfg := by unfold accept; split <;> simp_all
@[simp] theorem accept_errInv (s : State) : (accept s).errInv = s.errInv := by unfold accept; split <;> simp_all
@[simp] theorem accept_hostEndian (s : State) : (accept s).hostEndian = s.hostEndian :=
  by unfold accept; split <;> simp_all
@[simp] theorem accept_cmdIn (s : State) : (accept s).cmdIn = s.cmdIn := by unfold accept; split <;> simp_all
@[simp] theorem accept_dataIn (s : State) : (accept s).dataIn = s.dataIn := by unfold accept; split <;> simp_all
@[simp] theorem accept_rst (s : State) : (accept s).rst = s.rst := by unfold accept; split <;> simp_all
@[simp] theorem accept_ready (s : State) : (accept s).ready = s.ready := by unfold accept; split <;> simp_all
@[simp] theorem accept_port (s : State) : (accept s).port = if s.ready then [] else s.port :=
  by unfold accept; split <;> simp_all
@[simp] theorem accept_taken (s : State) : (accept s).taken = if s.ready then s.taken ++ s.port else s.taken :=
  by unfold accept; split <;> simp_all
/-! `takeReset` -/
@[simp] theorem takeReset_seq (s : State) : (takeReset s).seq = 0 := rfl
@[simp] theorem takeReset_swid (s : State) : (takeReset s).swid = 0 := rfl
@[simp] theorem takeReset_we (s : State) : (takeReset s).we = .little := rfl
@[simp] theorem takeReset_swap (s : State) : (takeReset s).swap = swapDecision s.hostEndian .little := rfl
@[simp] theorem takeReset_cfgd (s : State) : (takeReset s).cfgd = false := rfl
@[simp] theorem takeReset_errIll (s : State) : (takeReset s).errIll = false := rfl
@[simp] theorem takeReset_errNcfg (s : State) : (takeReset s).errNcfg = false := rfl
@[simp] theorem takeReset_errInv (s : State) : (takeReset s).errInv = false := rfl
@[simp] theorem takeReset_hostEndian (s : State) : (takeReset s).hostEndian = s.hostEndian := rfl
@[simp] theorem takeReset_cmdIn (s : State) : (takeReset s).cmdIn = (discardPartial s.cmdIn s.dataIn).1 := rfl
@[simp] theorem takeReset_dataIn (s : State) : (takeReset s).dataIn = (discardPartial s.cmdIn s.dataIn).2 := rfl
@[simp] theorem takeReset_rst (s : State) : (takeReset s).rst = false := rfl
@[simp] theorem takeReset_ready (s : State) : (takeReset s).ready = s.ready := rfl
@[simp] theorem takeReset_port (s : State) : (takeReset s).port = [] := rfl
@[simp] theorem takeReset_taken (s : State) : (takeReset s).taken = s.taken ++ s.port := rfl
/-! `placeCommand` -/
@[simp] theorem placeCommand_seq (nbits w : Nat) (s : State) : (placeCommand s nbits w).seq = s.seq := rfl
@[simp] theorem placeCommand_swid (nbits w : Nat) (s : State) : (placeCommand s nbits w).swid = s.swid := rfl
@[simp] theorem placeCommand_we (nbits w : Nat) (s : State) : (placeCommand s nbits w).we = s.we := rfl
@[simp] theorem placeCommand_swap (nbits w : Nat) (s : State) : (placeCommand s nbits w).swap = s.swap := rfl
@[simp] theorem placeCommand_cfgd (nbits w : Nat) (s : State) : (placeCommand s nbits w).cfgd = s.cfgd := rfl
@[simp] theorem placeCommand_errIll (nbits w : Nat) (s : State) : (placeCommand s nbits w).errIll = s.errIll := rfl
@[simp] theorem placeCommand_errNcfg (nbits w : Nat) (s : State) : (placeCommand s nbits w).errNcfg = s.errNcfg :=
  rfl
@[simp] theorem placeCommand_errInv (nbits w : Nat) (s : State) : (placeCommand s nbits w).errInv = s.errInv := rfl
@[simp] theorem placeCommand_hostEndian (nbits w : Nat) (s : State) :
    (placeCommand s nbits w).hostEndian = s.hostEndian :=
  rfl
@[simp] theorem placeCommand_cmdIn (nbits w : Nat) (s : State) :
    (placeCommand s nbits w).cmdIn = tableWords nbits w ++ s.cmdIn :=
  rfl
@[simp] theorem placeCommand_dataIn (nbits w : Nat) (s : State) :
    (placeCommand s nbits w).dataIn = tableData nbits w ++ s.dataIn :=
  rfl
@[simp] theorem placeCommand_rst (nbits w : Nat) (s : State) : (placeCommand s nbits w).rst = false := rfl
@[simp] theorem placeCommand_ready (nbits w : Nat) (s : State) : (placeCommand s nbits w).ready = s.ready := rfl
@[simp] theorem placeCommand_port (nbits w : Nat) (s : State) : (placeCommand s nbits w).port = [] := rfl
@[simp] theorem placeCommand_taken (nbits w : Nat) (s : State) : (placeCommand s nbits w).taken = s.taken ++ s.port :=
  rfl
/-! `issue` -/
@[simp] theorem issue_seq (i : Instr) (s : State) : (issue i s).seq = s.seq := rfl
@[simp] theorem issue_swid (i : Instr) (s : State) : (issue i s).swid = s.swid := rfl
@[simp] theorem issue_we (i : Instr) (s : State) : (issue i s).we = s.we := rfl
@[simp] theorem issue_swap (i : Instr) (s : State) : (issue i s).swap = s.swap := rfl
@[simp] theorem issue_cfgd (i : Instr) (s : State) : (issue i s).cfgd = s.cfgd := rfl
@[simp] theorem issue_errIll (i : Instr) (s : State) : (issue i s).errIll = s.errIll := rfl
@[simp] theorem issue_errNcfg (i : Instr) (s : State) : (issue i s).errNcfg = s.errNcfg := rfl
@[simp] theorem issue_errInv (i : Instr) (s : State) : (issue i s).errInv = s.errInv := rfl
@[simp] theorem issue_hostEndian (i : Instr) (s : State) : (issue i s).hostEndian = s.hostEndian := rfl
@[simp] theorem issue_cmdIn (i : Instr) (s : State) : (issue i s).cmdIn = s.cmdIn ++ encodeWords i := rfl
@[simp] theorem issue_dataIn (i : Instr) (s : State) : (issue i s).dataIn = s.dataIn ++ encodeData i := rfl
@[simp] theorem issue_rst (i : Instr) (s : State) : (issue i s).rst = s.rst := rfl
@[simp] theorem issue_ready (i : Instr) (s : State) : (issue i s).ready = s.ready := rfl
@[simp] theorem issue_port (i : Instr) (s : State) : (issue i s).port = s.port := rfl
@[simp] theorem issue_taken (i : Instr) (s : State) : (issue i s).taken = s.taken := rfl
/-! `setReady` -/
@[simp] theorem setReady_seq (b : Bool) (s : State) : (setReady b s).seq = s.seq := rfl
@[simp] theorem setReady_swid (b : Bool) (s : State) : (setReady b s).swid = s.swid := rfl
@[simp] theorem setReady_we (b : Bool) (s : State) : (setReady b s).we = s.we := rfl
@[simp] theorem setReady_swap (b : Bool) (s : State) : (setReady b s).swap = s.swap := rfl
@[simp] theorem setReady_cfgd (b : Bool) (s : State) : (setReady b s).cfgd = s.cfgd := rfl
@[simp] theorem setReady_errIll (b : Bool) (s : State) : (setReady b s).errIll = s.errIll := rfl
@[simp] theorem setReady_errNcfg (b : Bool) (s : State) : (setReady b s).errNcfg = s.errNcfg := rfl
@[simp] theorem setReady_errInv (b : Bool) (s : State) : (setReady b s).errInv = s.errInv := rfl
@[simp] theorem setReady_hostEndian (b : Bool) (s : State) : (setReady b s).hostEndian = s.hostEndian := rfl
@[simp] theorem setReady_cmdIn (b : Bool) (s : State) : (setReady b s).cmdIn = s.cmdIn := rfl
@[simp] theorem setReady_dataIn (b : Bool) (s : State) : (setReady b s).dataIn = s.dataIn := rfl
@[simp] theorem setReady_rst (b : Bool) (s : State) : (setReady b s).rst = s.rst := rfl
@[simp] theorem setReady_ready (b : Bool) (s : State) : (setReady b s).ready = b := rfl
@[simp] theorem setReady_port (b : Bool) (s : State) : (setReady b s).port = s.port := rfl
@[simp] theorem setReady_taken (b : Bool) (s : State) : (setReady b s).taken = s.taken := rfl
/-! `issueAll` -/
@[simp] theorem issueAll_seq (cs : List Command) (s : State) : (issueAll cs s).seq = s.seq := rfl
@[simp] theorem issueAll_swid (cs : List Command) (s : State) : (issueAll cs s).swid = s.swid := rfl
@[simp] theorem issueAll_we (cs : List Command) (s : State) : (issueAll cs s).we = s.we := rfl
@[simp] theorem issueAll_swap (cs : List Command) (s : State) : (issueAll cs s).swap = s.swap := rfl
@[simp] theorem issueAll_cfgd (cs : List Command) (s : State) : (issueAll cs s).cfgd = s.cfgd := rfl
@[simp] theorem issueAll_errIll (cs : List Command) (s : State) : (issueAll cs s).errIll = s.errIll := rfl
@[simp] theorem issueAll_errNcfg (cs : List Command) (s : State) : (issueAll cs s).errNcfg = s.errNcfg := rfl
@[simp] theorem issueAll_errInv (cs : List Command) (s : State) : (issueAll cs s).errInv = s.errInv := rfl
@[simp] theorem issueAll_hostEndian (cs : List Command) (s : State) : (issueAll cs s).hostEndian = s.hostEndian := rfl
@[simp] theorem issueAll_cmdIn (cs : List Command) (s : State) :
    (issueAll cs s).cmdIn = s.cmdIn ++ (cs.map Command.words).flatten :=
  rfl
@[simp] theorem issueAll_dataIn (cs : List Command) (s : State) :
    (issueAll cs s).dataIn = s.dataIn ++ (cs.map Command.bytes).flatten :=
  rfl
@[simp] theorem issueAll_rst (cs : List Command) (s : State) : (issueAll cs s).rst = s.rst := rfl
@[simp] theorem issueAll_ready (cs : List Command) (s : State) : (issueAll cs s).ready = s.ready := rfl
@[simp] theorem issueAll_port (cs : List Command) (s : State) : (issueAll cs s).port = s.port := rfl
@[simp] theorem issueAll_taken (cs : List Command) (s : State) : (issueAll cs s).taken = s.taken := rfl
/-! `registersOf` -/
@[simp] theorem registersOf_seq (s : State) : (registersOf s).seq = s.seq := rfl
@[simp] theorem registersOf_swid (s : State) : (registersOf s).swid = s.swid := rfl
@[simp] theorem registersOf_we (s : State) : (registersOf s).we = s.we := rfl
@[simp] theorem registersOf_swap (s : State) : (registersOf s).swap = s.swap := rfl
@[simp] theorem registersOf_cfgd (s : State) : (registersOf s).cfgd = s.cfgd := rfl
@[simp] theorem registersOf_errIll (s : State) : (registersOf s).errIll = s.errIll := rfl
@[simp] theorem registersOf_errNcfg (s : State) : (registersOf s).errNcfg = s.errNcfg := rfl
@[simp] theorem registersOf_errInv (s : State) : (registersOf s).errInv = s.errInv := rfl

end Sys2Proof.Machine
end

