-- ==== Sys2Proof/Laws/Ops.lean ====
section
/-! SUPPORT. What each shared operation can do, and from it what an instruction and a step can do. The provers cite these
instead of unfolding the model. -/

namespace Sys2Proof.Machine

theorem unlessFaulted_running {s : State} (t : State) (h : s.errInv = false) : unlessFaulted s t = t := by
  simp [unlessFaulted, h]

theorem unlessFaulted_faulted {s : State} (t : State) (h : s.errInv = true) : unlessFaulted s t = refuseFaulted s := by
  simp [unlessFaulted, h]

theorem raiseIllegal_running {s : State} (h : s.errInv = false) : raiseIllegal s = raise .illegalCommand s :=
  unlessFaulted_running _ h

theorem raiseIllegal_faulted {s : State} (h : s.errInv = true) : raiseIllegal s = refuseFaulted s :=
  unlessFaulted_faulted _ h

/-- An ENC with its LEN data bytes, in a configured block: the closed form, no error (42_encode.md R140 to R153). -/
theorem encodeBuffer_complete {s : State} (r v t : Bool) {len : Word} {buf : List Byte} (hlen : buf.length = len.toNat)
    (h : s.cfgd = true) :
    encodeBuffer r v t len buf s =
      deliverTrain (specTrain s r v t len buf) (s.seq + BitVec.ofNat 16 (2 + specChunks len.toNat)) s := by
  simp [encodeBuffer, h, encodeTrain_closed_form s r v t len buf hlen]

/-- What any ENC does, well formed or not (R140): NotConfigured, a delivered train with the counter past its frames, or
InvariantFault. -/
theorem encodeBuffer_cases (r v t : Bool) (len : Word) (buf : List Byte) (s : State) :
    (s.cfgd = false ∧ encodeBuffer r v t len buf s = raise .notConfigured s) ∨
    (s.cfgd = true ∧ ∃ train c, encodeTrain s.swid s.swap s.seq (packFlags r v t) len buf = .ok (train, c) ∧
      encodeBuffer r v t len buf s = deliverTrain train c s) ∨
    (s.cfgd = true ∧ ∃ e, encodeTrain s.swid s.swap s.seq (packFlags r v t) len buf = .error e ∧
      encodeBuffer r v t len buf s = raise .invariantFault s) := by
  unfold encodeBuffer
  cases hc : s.cfgd with
  | false => exact .inl ⟨rfl, by simp⟩
  | true =>
    cases he : encodeTrain s.swid s.swap s.seq (packFlags r v t) len buf with
    | ok p => exact .inr (.inl ⟨rfl, p.1, p.2, rfl, by simp⟩)
    | error e => exact .inr (.inr ⟨rfl, e, rfl, by simp⟩)

/-- Everything an instruction can do: the refusal of a FAULTED block, an answer that writes nothing (STAT and the
byte-order commands), a CFG, or an ENC. It always gives a next state. -/
theorem exec_cases (i : Instr) (s : State) :
    (s.errInv = true ∧ i ≠ .stat ∧ exec i s = .next (refuseFaulted s)) ∨
    (isCfg i = false ∧ isEnc i = false ∧ ∃ v, exec i s = .next (respondOk v s)) ∨
    (s.errInv = false ∧ ∃ swid we, i = .cfg swid we ∧ exec i s = .next (respondOk 0 (configure swid we s))) ∨
    (s.errInv = false ∧ ∃ r v t len buf, i = .enc r v t len buf ∧
      exec i s = .next (encodeBuffer r v t len buf s)) := by
  cases hf : s.errInv with
  | true =>
    cases i with
    | stat => exact .inr (.inl ⟨rfl, rfl, _, rfl⟩)
    | cfg swid we => exact .inl ⟨rfl, by simp, congrArg _ (unlessFaulted_faulted _ hf)⟩
    | enc r v t len buf => exact .inl ⟨rfl, by simp, congrArg _ (unlessFaulted_faulted _ hf)⟩
    | hostend => exact .inl ⟨rfl, by simp, congrArg _ (unlessFaulted_faulted _ hf)⟩
    | swap16 x => exact .inl ⟨rfl, by simp, congrArg _ (unlessFaulted_faulted _ hf)⟩
    | swap32 x => exact .inl ⟨rfl, by simp, congrArg _ (unlessFaulted_faulted _ hf)⟩
    | comp16 b0 b1 sw => exact .inl ⟨rfl, by simp, congrArg _ (unlessFaulted_faulted _ hf)⟩
    | comp32 b0 b1 b2 b3 sw => exact .inl ⟨rfl, by simp, congrArg _ (unlessFaulted_faulted _ hf)⟩
    | rdbit b pos => exact .inl ⟨rfl, by simp, congrArg _ (unlessFaulted_faulted _ hf)⟩
  | false =>
    cases i with
    | cfg swid we => exact .inr (.inr (.inl ⟨rfl, _, _, rfl, congrArg _ (unlessFaulted_running _ hf)⟩))
    | enc r v t len buf =>
      exact .inr (.inr (.inr ⟨rfl, _, _, _, _, _, rfl, congrArg _ (unlessFaulted_running _ hf)⟩))
    | stat => exact .inr (.inl ⟨rfl, rfl, _, rfl⟩)
    | hostend => exact .inr (.inl ⟨rfl, rfl, _, congrArg _ (unlessFaulted_running _ hf)⟩)
    | swap16 x => exact .inr (.inl ⟨rfl, rfl, _, congrArg _ (unlessFaulted_running _ hf)⟩)
    | swap32 x => exact .inr (.inl ⟨rfl, rfl, _, congrArg _ (unlessFaulted_running _ hf)⟩)
    | comp16 b0 b1 sw => exact .inr (.inl ⟨rfl, rfl, _, congrArg _ (unlessFaulted_running _ hf)⟩)
    | comp32 b0 b1 b2 b3 sw => exact .inr (.inl ⟨rfl, rfl, _, congrArg _ (unlessFaulted_running _ hf)⟩)
    | rdbit b pos => exact .inr (.inl ⟨rfl, rfl, _, congrArg _ (unlessFaulted_running _ hf)⟩)

/-- Everything a step can do: take a reset, let the host take waiting output, wait for a command to become complete,
answer an illegal command, or run a legal one. -/
theorem step_cases (s : State) :
    (s.rst = true ∧ step s = .next (takeReset s)) ∨
    (s.rst = false ∧ s.port ≠ [] ∧ step s = .next (accept s)) ∨
    (s.rst = false ∧ s.port = [] ∧ readCommand s.cmdIn s.dataIn = .incomplete ∧ step s = .next s) ∨
    (s.rst = false ∧ s.port = [] ∧ ∃ why ws ds, readCommand s.cmdIn s.dataIn = .illegal why ws ds ∧
      step s = .next (accept (raiseIllegal (consumeInput ws ds s)))) ∨
    (s.rst = false ∧ s.port = [] ∧ ∃ i ws ds, readCommand s.cmdIn s.dataIn = .command i ws ds ∧
      step s = settle (exec i (consumeInput ws ds s))) := by
  cases hr : s.rst with
  | true => exact .inl ⟨rfl, by simp [step, cycle, hr]⟩
  | false =>
    by_cases hp : s.port = []
    · cases hc : readCommand s.cmdIn s.dataIn with
      | incomplete => exact .inr (.inr (.inl ⟨rfl, hp, rfl, by simp [step, cycle, hr, hp, hc]⟩))
      | illegal why ws ds =>
        exact .inr (.inr (.inr (.inl ⟨rfl, hp, why, ws, ds, rfl, by simp [step, cycle, hr, hp, hc, settle]⟩)))
      | command i ws ds =>
        exact .inr (.inr (.inr (.inr ⟨rfl, hp, i, ws, ds, rfl, by simp [step, cycle, hr, hp, hc]⟩)))
    · exact .inr (.inl ⟨rfl, hp, by simp [step, cycle, hr, hp]⟩)

end Sys2Proof.Machine
end

