-- ==== Sys2Proof/Laws/Run.lean ====
section
/-! SUPPORT. What the operations of a run can do: a complete command reads the same whatever stands behind it, and
`advance` goes step by step and never stops. -/

namespace Sys2Proof

/-- A reading with more words and bytes standing behind it. -/
def withBehind (ws' : List Word) (ds' : List Byte) : Reading → Reading
  | .incomplete => .incomplete
  | .illegal why ws ds => .illegal why (ws ++ ws') (ds ++ ds')
  | .command i ws ds => .command i (ws ++ ws') (ds ++ ds')

theorem judge_append (w0 w1 : Word) (buf : List Byte) (ws ws' : List Word) (ds ds' : List Byte) :
    judge w0 w1 buf (ws ++ ws') (ds ++ ds') = withBehind ws' ds' (judge w0 w1 buf ws ds) := by
  unfold judge
  cases decodeCommand w0 w1 buf <;> rfl

/-- Reading a whole command looks at the head of the channels only: what stands behind it stays there (30_encoding.md
R61). -/
theorem readCommand_append {ws : List Word} {ds : List Byte} (h : readCommand ws ds ≠ .incomplete) (ws' : List Word)
    (ds' : List Byte) : readCommand (ws ++ ws') (ds ++ ds') = withBehind ws' ds' (readCommand ws ds) := by
  match ws with
  | [] => simp [readCommand] at h
  | w0 :: rest =>
    rcases commandWords_cases (opcField w0) with hw | hw
    · rw [List.cons_append, readCommand_one_word hw, readCommand_one_word hw, judge_append]
    · match rest with
      | [] => simp [readCommand, hw] at h
      | w1 :: ws1 =>
        have hd : commandBytes (opcField w0) w1 ≤ ds.length := by
          by_contra hlt
          exact h (by simp [readCommand, hw, Nat.lt_of_not_le hlt])
        rw [List.cons_append, List.cons_append, readCommand_two_words hw (by simp; omega), readCommand_two_words hw hd,
          List.take_append_of_le_length hd, List.drop_append_of_le_length hd, judge_append]

end Sys2Proof

namespace Sys2Proof.Machine

/-- A complete command at the head of the channels is read whole, and leaves exactly what stands behind it (10_state.md
R34, R201). -/
theorem isComplete_read {c : Command} (h : isComplete c = true) :
    (∃ i, ∀ ws ds, readCommand (c.words ++ ws) (c.bytes ++ ds) = .command i ws ds) ∨
    (∃ why, ∀ ws ds, readCommand (c.words ++ ws) (c.bytes ++ ds) = .illegal why ws ds) := by
  cases hr : readCommand c.words c.bytes with
  | incomplete => simp [isComplete, hr] at h
  | command i ws1 ds1 =>
    simp only [isComplete, hr, Bool.and_eq_true, List.isEmpty_iff] at h
    exact .inl ⟨i, fun ws ds => by rw [readCommand_append (by simp [hr]), hr, h.1, h.2]; rfl⟩
  | illegal why ws1 ds1 =>
    simp only [isComplete, hr, Bool.and_eq_true, List.isEmpty_iff] at h
    exact .inr ⟨why, fun ws ds => by rw [readCommand_append (by simp [hr]), hr, h.1, h.2]; rfl⟩

@[simp] theorem advance_nil (s : State) : advance [] s = .next s := rfl

theorem advance_cons {ready : Bool} {s t : State} (h : step (setReady ready s) = .next t) (rest : List Bool) :
    advance (ready :: rest) s = advance rest t := by
  simp [advance, h]

theorem advance_append {as : List Bool} {s t : State} (h : advance as s = .next t) (bs : List Bool) :
    advance (as ++ bs) s = advance bs t := by
  induction as generalizing s with
  | nil =>
    cases h
    rfl
  | cons ready as ih =>
    simp only [List.cons_append, advance] at h ⊢
    split at h
    · next u hu => simpa [hu] using ih h
    · cases h
    · cases h

@[simp] theorem responsesOf_append (as bs : List Output) :
    responsesOf (as ++ bs) = responsesOf as ++ responsesOf bs := by
  induction as with
  | nil => rfl
  | cons o as ih => cases o <;> simp [responsesOf, ih]

@[simp] theorem trainsOf_append (as bs : List Output) : trainsOf (as ++ bs) = trainsOf as ++ trainsOf bs := by
  induction as with
  | nil => rfl
  | cons o as ih => cases o <;> simp [trainsOf, ih]

/-- A list of commands is issued one command at a time. -/
theorem issueAll_cons (c : Command) (cs : List Command) (s : State) :
    issueAll (c :: cs) s = issueAll cs (issueAll [c] s) := by
  simp only [issueAll, List.map_cons, List.map_nil, List.flatten_cons, List.flatten_nil, List.append_nil,
    List.append_assoc]

theorem issueAll_commandOf (i : Instr) (s : State) : issueAll [commandOf i] s = issue i s := by
  simp only [issueAll, commandOf, issue, List.map_cons, List.map_nil, List.flatten_cons, List.flatten_nil,
    List.append_nil]

/-- The observation of an ended run, and when there is one (70_reset_and_hazards.md R201). -/
theorem observeRun_eq_some {accepts : List Bool} {cs : List Command} {s : State} {o : Observation} :
    observeRun accepts cs s = some o ↔
      ∃ t, advance accepts (issueAll cs s) = .next t ∧ runEnded t = true ∧ o = observation s t := by
  unfold observeRun
  cases advance accepts (issueAll cs s) with
  | next t => by_cases he : runEnded t = true <;> simp [he, eq_comm (a := o)]
  | fault e => simp
  | refused e => simp

end Sys2Proof.Machine
end

