-- ==== Sys2Proof/Machine/Asm.lean ====
section
/-! DEFINITION. The assembler notation of 30_encoding.md R74: from the text of a program to its instructions, whose words
and data bytes are `encode`'s. It is notation for the host's program; the block itself reads words. -/

namespace Sys2Proof.Machine

/-- A line of a program: a command, or the bytes of a data directive. ENC's buffer comes from the directives behind it. -/
inductive AsmLine where
  | command (i : Instr)
  | data (bytes : List Byte)
  deriving DecidableEq, Repr

/-- A space or a tab between the parts of a line. -/
def isBlank (c : Char) : Bool := c == ' ' || c == '\t'

/-- A text without the blanks at its two ends. -/
def trimBlank (cs : List Char) : List Char := ((cs.dropWhile isBlank).reverse.dropWhile isBlank).reverse

/-- The pieces of a text between the occurrences of a character; always one at least. -/
def splitAt (c : Char) : List Char → List (List Char)
  | [] => [[]]
  | x :: xs =>
    if x = c then [] :: splitAt c xs
    else
      match splitAt c xs with
      | [] => [[x]]
      | piece :: rest => (x :: piece) :: rest

/-- The value of a hexadecimal digit. -/
def hexDigit (c : Char) : Option Nat :=
  if '0' ≤ c ∧ c ≤ '9' then some (c.toNat - '0'.toNat)
  else if 'a' ≤ c ∧ c ≤ 'f' then some (c.toNat - 'a'.toNat + 10)
  else if 'A' ≤ c ∧ c ≤ 'F' then some (c.toNat - 'A'.toNat + 10)
  else none

/-- The value of a run of digits in a base, most significant first. -/
def digitsValue (base : Nat) : (acc : Nat) → List Char → Option Nat
  | acc, [] => some acc
  | acc, c :: cs =>
    match hexDigit c with
    | some d => if d < base then digitsValue base (acc * base + d) cs else none
    | none => none

/-- A number, decimal or `0x` hexadecimal (R74). -/
def parseNumber (cs : List Char) : Option Nat :=
  match cs with
  | [] => none
  | '0' :: 'x' :: d :: ds => digitsValue 16 0 (d :: ds)
  | d :: ds => digitsValue 10 0 (d :: ds)

/-- A number that an `n`-bit operand field holds (R71). -/
def parseField (n : Nat) (cs : List Char) : Option (BitVec n) :=
  (parseNumber cs).bind fun v => if v < 2 ^ n then some (BitVec.ofNat n v) else none

/-- The operand `s`, 0 or 1 (R74). -/
def parseBit (cs : List Char) : Option Bool := (parseField 1 cs).map fun b => b.getLsbD 0

/-- `LE` or `BE` (R74). -/
def parseEndian (cs : List Char) : Option Endian :=
  if cs = "LE".toList then some .little else if cs = "BE".toList then some .big else none

/-- `none`, or a subset of R, V and T joined by `|` (R74), as the three flags R, V, T. -/
def parseFlags (cs : List Char) : Option (Bool × Bool × Bool) :=
  if cs = "none".toList then some (false, false, false)
  else
    let names := (splitAt '|' cs).map trimBlank
    if names.all (fun n => n = ['R'] || n = ['V'] || n = ['T']) && names.Nodup then
      some (names.contains ['R'], names.contains ['V'], names.contains ['T'])
    else none

/-- The bytes of `.ramp n`: byte i is i mod 256 (R74). -/
def rampBytes (n : Nat) : List Byte := (List.range n).map (BitVec.ofNat 8)

/-- The bytes of `.fill n, v`: n copies of v (R74). -/
def fillBytes (n : Nat) (v : Byte) : List Byte := List.replicate n v

/-- A command or a data directive, from its name and its operands (R74). `CFG swid` stands for `CFG swid, LE`, and
`ENC len` for `ENC len, none`. -/
def parseLine (name : List Char) (args : List (List Char)) : Option AsmLine :=
  if name = "CFG".toList then
    match args with
    | [a] => do return .command (.cfg (← parseField 8 a) .little)
    | [a, e] => do return .command (.cfg (← parseField 8 a) (← parseEndian e))
    | _ => none
  else if name = "ENC".toList then
    match args with
    | [l] => do return .command (.enc false false false (← parseField 32 l) [])
    | [l, f] => do
      let flags ← parseFlags f
      return .command (.enc flags.1 flags.2.1 flags.2.2 (← parseField 32 l) [])
    | _ => none
  else if name = "STAT".toList then
    match args with
    | [] => some (.command .stat)
    | _ => none
  else if name = "HOSTEND".toList then
    match args with
    | [] => some (.command .hostend)
    | _ => none
  else if name = "SWAP16".toList then
    match args with
    | [x] => do return .command (.swap16 (← parseField 16 x))
    | _ => none
  else if name = "SWAP32".toList then
    match args with
    | [x] => do return .command (.swap32 (← parseField 32 x))
    | _ => none
  else if name = "COMP16".toList then
    match args with
    | [b0, b1, s] => do return .command (.comp16 (← parseField 8 b0) (← parseField 8 b1) (← parseBit s))
    | _ => none
  else if name = "COMP32".toList then
    match args with
    | [b0, b1, b2, b3, s] => do
      return .command (.comp32 (← parseField 8 b0) (← parseField 8 b1) (← parseField 8 b2) (← parseField 8 b3)
        (← parseBit s))
    | _ => none
  else if name = "RDBIT".toList then
    match args with
    | [b, p] => do return .command (.rdbit (← parseField 8 b) (← parseField 3 p))
    | _ => none
  else if name = ".bytes".toList then do return .data (← args.mapM (parseField 8))
  else if name = ".fill".toList then
    match args with
    | [n, v] => do return .data (fillBytes (← parseNumber n) (← parseField 8 v))
    | _ => none
  else if name = ".ramp".toList then
    match args with
    | [n] => do return .data (rampBytes (← parseNumber n))
    | _ => none
  else none

/-- One line of text: what stands before `;`, its name up to the first blank, its operands between commas. A line with
nothing on it is no line of the program. -/
def readLine (cs : List Char) : Option (List AsmLine) :=
  let text := trimBlank (cs.takeWhile (· ≠ ';'))
  if text = [] then some []
  else
    let rest := trimBlank (text.dropWhile (fun c => !isBlank c))
    let args := if rest = [] then [] else (splitAt ',' rest).map trimBlank
    (parseLine (text.takeWhile (fun c => !isBlank c)) args).map fun line => [line]

/-- An ENC with its data bytes; any other command as it is. -/
def withBuffer (i : Instr) (bytes : List Byte) : Instr :=
  match i with
  | .cfg swid we => .cfg swid we
  | .enc r v t len _ => .enc r v t len bytes
  | .stat => .stat
  | .hostend => .hostend
  | .swap16 x => .swap16 x
  | .swap32 x => .swap32 x
  | .comp16 b0 b1 sw => .comp16 b0 b1 sw
  | .comp32 b0 b1 b2 b3 sw => .comp32 b0 b1 b2 b3 sw
  | .rdbit b pos => .rdbit b pos

/-- Gives each ENC the bytes of the directives behind it, which must total exactly LEN; no other command takes any (R74).
The second part is the bytes that stand before the first command. -/
def attachData : List AsmLine → Option (List Instr × List Byte)
  | [] => some ([], [])
  | .data bytes :: rest => (attachData rest).map fun p => (p.1, bytes ++ p.2)
  | .command i :: rest =>
    (attachData rest).bind fun p =>
      if wellFormed (withBuffer i p.2) ∧ encodeData (withBuffer i p.2) = p.2 then
        some (withBuffer i p.2 :: p.1, [])
      else none

/-- The instructions of a program's text. -/
def assemble (text : List Char) : Option (List Instr) :=
  ((splitAt '\n' text).mapM readLine).bind fun lines =>
    (attachData lines.flatten).bind fun p => if p.2 = [] then some p.1 else none

end Sys2Proof.Machine
end

