-- ==== Sys2Proof/Tests/Slice0.lean ====
section
/-! SUPPORT. Tests on small states, each one step or less. Expected values come from the vectors of 95_test_vectors.md, named
in the comments, or by hand from the rules; and, for each statement of Certificates/Slice0/Obligations.lean that has
hypotheses, a state and operands that meet them. -/

namespace Sys2Proof.Tests

open Sys2Proof Sys2Proof.Machine

/-- One field of a next state. -/
def after {α : Type} (r : Result) (f : State → α) : Option α :=
  match r with
  | .next t => some (f t)
  | .fault _ => none
  | .refused _ => none

/-- A configured block (SWID, SWAP, SEQ given) on a Little host. -/
def session (swid : Byte) (we : Endian) (seq : Half) : State :=
  { State.reset with swid := swid, we := we, swap := decide (we ≠ .little), seq := seq, cfgd := true }

/-- The reset state with words and bytes on its channels. -/
def sent (ws : List Word) (ds : List Byte) : State := { State.reset with cmdIn := ws, dataIn := ds }

/-- A FAULTED block, which no conforming run reaches (V-ERR, F vectors). -/
def faultedWith (ws : List Word) (ds : List Byte) : State := { sent ws ds with errInv := true }

/-- A block whose last response the host has not accepted. -/
def blocked (ready : Bool) : State := { State.reset with port := [.response ⟨.ok, 0⟩], ready := ready }

/-- What the host has taken, the registers, and what is left in the channels, after one step. -/
def stepView (s : State) : Option (List Output × Registers × List Word × List Byte) :=
  after (step s) fun t => (t.taken, registersOf t, t.cmdIn, t.dataIn)

/-- The outputs a command presents. -/
def answer (i : Instr) (s : State) : Option (List Output) := after (exec i s) State.port

/-! ### Well-formedness -/

/-- R65: ENC carries exactly LEN bytes; one byte too few is no complete command. -/
theorem test_illFormed_enc_short : wellFormed (.enc false false false 2 [0xAA]) = false := by decide

theorem test_illFormed_enc_long : wellFormed (.enc false false false 0 [0xAA]) = false := by decide

theorem test_wellFormed_enc : wellFormed (.enc false false false 2 [0xAA, 0xBB]) = true := by decide

/-! ### Decoding: words written out from the formats R63 to R70 -/

/-- Format C: 00000001 000000000000000 1 11111111. -/
theorem test_decode_cfg :
    readCommand [0b00000001_000000000000000_1_11111111] [] = .command (.cfg 0xFF .big) [] [] := by decide

/-- Format E: T = 1, V = 0, R = 1, LEN = 2; the third byte and the second command stay. -/
theorem test_decode_enc : readCommand [0b00000010_000000000000000000000_101, 2, 0x03000000] [0xAA, 0xBB, 0xCC] =
    .command (.enc true false true 2 [0xAA, 0xBB]) [0x03000000] [0xCC] := by decide

/-- Format N, STAT. -/
theorem test_decode_stat : readCommand [0b00000011_000000000000000000000000] [] = .command .stat [] [] := by decide

/-- Format N, HOSTEND. -/
theorem test_decode_hostend : readCommand [0b00010000_000000000000000000000000] [] = .command .hostend [] [] := by decide

/-- Format H. -/
theorem test_decode_swap16 :
    readCommand [0b00010001_00000000_1010101111001101] [] = .command (.swap16 0xABCD) [] [] := by decide

/-- Format W. -/
theorem test_decode_swap32 :
    readCommand [0b00010010_000000000000000000000000, 0x12345678] [] = .command (.swap32 0x12345678) [] [] := by decide

/-- Format B2: S, then B1, then B0. -/
theorem test_decode_comp16 :
    readCommand [0b00010011_0000000_1_11101000_00000011] [] = .command (.comp16 0x03 0xE8 true) [] [] := by decide

/-- Format B4: word 1 is B3, B2, B1, B0. -/
theorem test_decode_comp32 : readCommand [0b00010100_00000000000000000000000_1, 0x04030201] [] =
    .command (.comp32 0x01 0x02 0x03 0x04 true) [] [] := by decide

/-- Format RB: POS, then B. -/
theorem test_decode_rdbit :
    readCommand [0b00010101_0000000000000_111_10000000] [] = .command (.rdbit 0x80 7) [] [] := by decide

/-- R61, R198: a two-word command without its second word, and an ENC without its last byte, are incomplete. -/
theorem test_decode_incomplete :
    readCommand [0x12000000] [] = .incomplete ∧ readCommand [0x02000000, 2] [0xAA] = .incomplete ∧
      readCommand [] [] = .incomplete := by decide

/-- V-ERR E1 to E3 and the edges of R72 (a). -/
theorem test_unassigned_opcodes : ([0x00000000, 0x04000000, 0x0F000000, 0x16000000, 0xFF123456] : List Word).all
    (fun w => readCommand [w, 7] [1] == .illegal .unassignedOpcode [7] [1]) = true := by decide

/-- V-ERR E4, E5, E9, E10, E12, E13: one-word commands with a reserved bit set. -/
theorem test_reserved_one_word :
    ([0x01800001, 0x01000200, 0x03000001, 0x15000800, 0x13020000, 0x11010000, 0x10000001] : List Word).all
      (fun w => readCommand [w, 7] [] == .illegal .reservedBits [7] []) = true := by decide

/-- V-ERR E6, E7, E11: two-word commands with a reserved bit set consume word 1, and ENC its bytes. -/
theorem test_reserved_two_words :
    readCommand [0x12000100, 0x12345678, 7] [] = .illegal .reservedBits [7] [] ∧
    readCommand [0x14000002, 0, 7] [] = .illegal .reservedBits [7] [] ∧
    readCommand [0x02000008, 2, 7] [1, 2, 3] = .illegal .reservedBits [7] [3] := by decide

/-- spec/opcode_table.json: every row's match value decodes to the row's instruction. -/
theorem test_table_rows :
    [0x01000000, 0x02000000, 0x03000000, 0x10000000, 0x11000000, 0x12000000, 0x13000000, 0x14000000, 0x15000000].map
      (decodeTableWord 32) = [some (.cfg 0 .little), some (.enc false false false 0 []), some .stat, some .hostend,
        some (.swap16 0), some (.swap32 0), some (.comp16 0 0 false), some (.comp32 0 0 0 0 false),
        some (.rdbit 0 0)] := by decide

/-- The encoder writes the words of 95_test_vectors.md: P1, V-UT. -/
theorem test_encode_words :
    encodeWords (.cfg 0x34 .little) = [0x01000034] ∧ encodeWords (.enc true true true 1 [0x5A]) = [0x02000007, 1] ∧
    encodeWords (.comp16 0x03 0xE8 true) = [0x1301E803] ∧
    encodeWords (.comp32 0x00 0x00 0x03 0xE8 true) = [0x14000001, 0xE8030000] ∧
    encodeWords (.rdbit 0x80 7) = [0x15000780] := by decide

/-! ### The commands -/

/-- V-CFG row 2, issued at SEQ = 0x0123 with ERR_ILL = 1 (D11, D12). -/
theorem test_cfg_big_wire :
    after (exec (.cfg 0xFF .big) { State.reset with seq := 0x0123, errIll := true }) registersOf =
      some { seq := 0, swid := 0xFF, we := .big, swap := true, cfgd := true, errIll := true, errNcfg := false,
             errInv := false } := by decide

/-- V-CFG row 3: a Big host with a Little wire swaps. -/
theorem test_cfg_big_host : after (exec (.cfg 0x10 .little) (.resetFor .big)) State.swap = some true := by decide

/-- V-FR row 1: the train wraps past 0xFFFF. -/
theorem test_enc_wraps : answer (.enc false true false 1 [0x11]) (session 0x07 .little 0xFFFE) =
    some [.train [[0x07, 0xFE, 0xFF, 0x01, 0x01, 0, 0, 0], [0x07, 0xFF, 0xFF, 0x02, 0x01, 0x11],
      [0x07, 0x00, 0x00, 0x03, 0x02]], .response ⟨.ok, 3⟩] := by decide

/-- P2, command 2: 60 bytes, high byte first: chunks of 59 and 1. -/
theorem test_enc_chunk_boundary :
    answer (.enc false true false 60 (rampBytes 60)) (session 0xFF .big 0) =
    some [.train [[0xFF, 0, 0, 1, 0, 0, 0, 0x3C], [0xFF, 0, 1, 2, 0x3B] ++ rampBytes 59, [0xFF, 0, 2, 2, 1, 0x3B],
      [0xFF, 0, 3, 3, 2]], .response ⟨.ok, 4⟩] := by decide

/-- V-STAT, the row of the Big host. -/
theorem test_stat_big_host : answer .stat { State.resetFor .big with
    seq := 2, swid := 0x10, we := .big, swap := false, cfgd := true } = some [.response ⟨.ok, 0x0D100002⟩] := by decide

/-- V-ERR F1: STAT executes while FAULTED; V-STAT last row. -/
theorem test_stat_faulted : answer .stat (faultedWith [] []) = some [.response ⟨.ok, 0x40000000⟩] := by decide

/-- V-UT: HOSTEND on either host. -/
theorem test_hostend : answer .hostend (.resetFor .little) = some [.response ⟨.ok, 0⟩] ∧
    answer .hostend (.resetFor .big) = some [.response ⟨.ok, 1⟩] := by decide

/-- S6. -/
theorem test_swap16 : answer (.swap16 0x0123) .reset = some [.response ⟨.ok, 0x00002301⟩] := by decide

/-- V-UT: not 0x34127856. -/
theorem test_swap32 : answer (.swap32 0x12345678) .reset = some [.response ⟨.ok, 0x78563412⟩] := by decide

/-- V-UT: the swapped pair and the unswapped one. -/
theorem test_comp16 : answer (.comp16 0x03 0xE8 true) .reset = some [.response ⟨.ok, 0x03E8⟩] ∧
    answer (.comp16 0x03 0xE8 false) .reset = some [.response ⟨.ok, 0xE803⟩] := by decide

/-- V-UT: S set, and P4's Start bytes. -/
theorem test_comp32 : answer (.comp32 0x00 0x00 0x03 0xE8 true) .reset = some [.response ⟨.ok, 0x03E8⟩] ∧
    answer (.comp32 0x4F 0xFF 0x3A 0x00 false) .reset = some [.response ⟨.ok, 0x003AFF4F⟩] := by decide

/-- V-UT: the most significant bit. -/
theorem test_rdbit : answer (.rdbit 0x80 7) .reset = some [.response ⟨.ok, 1⟩] ∧
    answer (.rdbit 0x7F 7) .reset = some [.response ⟨.ok, 0⟩] := by decide

/-- V-BO. -/
theorem test_field_encoders : e16 0xABCD false = [0xCD, 0xAB] ∧ e16 0xABCD true = [0xAB, 0xCD] ∧
    e32 0x003AFF4F false = [0x4F, 0xFF, 0x3A, 0x00] ∧ e32 0x12345678 true = [0x12, 0x34, 0x56, 0x78] := by decide

/-- V-CH: frame counts, the largest L too. -/
theorem test_frame_counts : [0, 1, 59, 60, 118, 119, 1000, 3866447, 4294967295].map (2 + specChunks ·) =
    [2, 3, 3, 4, 4, 5, 19, 65535, 72796058] := by decide

/-! ### The step -/

/-- V-ERR E7: ILLEGAL outranks NOT_CONFIGURED, and two words and two bytes are consumed. -/
theorem test_step_illegal_enc : stepView (sent [0x02000008, 2, 0x03000000] [1, 2]) =
    some ([.response ⟨.illegalCommand, 0⟩], { registersOf .reset with errIll := true }, [0x03000000], []) := by decide

/-- V-ERR E8. -/
theorem test_step_not_configured : stepView (sent [0x02000000, 2] [0xAA, 0xBB]) =
    some ([.response ⟨.notConfigured, 0⟩], { registersOf .reset with errNcfg := true }, [], []) := by decide

/-- V-ERR F3: a FAULTED block consumes an ENC with its byte and refuses it. -/
theorem test_step_faulted_enc : stepView (faultedWith [0x02000000, 1] [7]) =
    some ([.response ⟨.faulted, 0⟩], registersOf (faultedWith [] []), [], []) := by decide

/-- V-ERR F4: FAULTED outranks ILLEGAL, and ERR_ILL is not set. -/
theorem test_step_faulted_illegal : stepView (faultedWith [0] []) =
    some ([.response ⟨.faulted, 0⟩], registersOf (faultedWith [] []), [], []) := by decide

/-- P1, command 2, as one step from its start state. -/
theorem test_step_enc : after (step (issue (.enc true true true 1 [0x5A]) (session 0x34 .little 0)))
    (fun t => (t.taken, t.seq)) = some ([.train [[0x34, 0, 0, 1, 1, 0, 0, 0], [0x34, 1, 0, 2, 1, 0x5A],
      [0x34, 2, 0, 3, 7]], .response ⟨.ok, 3⟩], 3) := by decide

/-- R190, R191: a reset of a FAULTED Big-host block discards a partial ENC and keeps the complete command before it. -/
theorem test_step_reset : (after (step { State.resetFor .big with
      rst := true, errInv := true, seq := 9, cmdIn := [0x03000000, 0x02000000, 3], dataIn := [1, 2] })
    fun t => (registersOf t, t.cmdIn, t.dataIn, t.rst)) =
      some (registersOf (.resetFor .big), [0x03000000], [], false) := by decide

/-- R193, R199: with nothing placed, and with output the host does not take, the step waits. -/
theorem test_step_holds : after (step .reset) id = some .reset ∧
    after (step (blocked false)) id = some (blocked false) := by decide

/-- R199: the host takes the waiting output. -/
theorem test_step_accepts : after (step (blocked true)) (fun t => (t.taken, t.port)) =
    some ([.response ⟨.ok, 0⟩], []) := by decide

/-- The fixed placement runs the placed command in the very next step, an ENC with its data bytes too. -/
theorem test_placed_commands : after (step (State.reset.withFetchWord 32 0x10000000)) State.taken =
      some [.response ⟨.ok, 0⟩] ∧
    after (step ((session 1 .little 0).withFetchWord 64 0x0000000202000001)) State.taken =
      some [.train [[1, 0, 0, 1, 2, 0, 0, 0], [1, 1, 0, 2, 2, 0, 0], [1, 2, 0, 3, 1]], .response ⟨.ok, 3⟩] := by decide

/-! ### Notation -/

/-- P1 as text (R74), with a comment and a blank line. -/
theorem test_assemble : assemble "CFG 0x34, LE\n\nENC 1, R|V|T ; one byte\n.bytes 0x5A\nSTAT".toList =
    some [.cfg 0x34 .little, .enc true true true 1 [0x5A], .stat] := by decide

/-- R74: the directives after an ENC must total LEN bytes; the two pseudo-instructions. -/
theorem test_assemble_directives : assemble "ENC 2\n.bytes 1".toList = none ∧
    assemble "CFG 7\nENC 5\n.fill 2, 0xFF\n.ramp 3".toList =
      some [.cfg 7 .little, .enc false false false 5 [0xFF, 0xFF, 0, 1, 2]] := by decide

/-! ### Runs -/

/-- P3, commands 2 and 4, before a host that accepts output one step late: an illegal word is a command of the run. -/
theorem test_observed_run : observeRun [false, true, true] [⟨[0], []⟩, commandOf (.cfg 1 .little)] .reset =
    some ⟨[⟨.illegalCommand, 0⟩, ⟨.ok, 0⟩], [],
      { registersOf .reset with swid := 1, cfgd := true, errIll := true }⟩ := by decide

/-- R201: a run with an incomplete command, and one whose output is not delivered, have not ended. -/
theorem test_run_not_ended : observeRun [true, true] [⟨[0x02000000, 2], [7]⟩] .reset = none ∧
    observeRun [false, false] [commandOf .stat] .reset = none := by decide

/-! ### Witnesses: states and operands that meet the hypotheses of the statements, named as the statement is -/

theorem witness_ReadingAnEncodedCommandGivesItBack :
    wellFormed (.enc true true true 1 [0x5A]) = true ∧ wellFormed (.enc false false false 0 []) = true := by decide

theorem witness_EachEncodingHasOneMeaning :
    readCommand [0x02000000, 1, 0x03000000] [7, 8] = .command (.enc false false false 1 [7]) [0x03000000] [8] := by decide

/-- Each clause of R61: ENC at LEN = 0 and LEN = all bytes, 0x12, 0x14, and the opcodes next to them. -/
theorem witness_OpcodeAloneFixesLength :
    (0x02000000 : Word).extractLsb' 24 8 = 0x02 ∧ (0 : Word).toNat ≤ ([] : List Byte).length ∧
    (2 : Word).toNat ≤ ([1, 2] : List Byte).length ∧ (0x12000000 : Word).extractLsb' 24 8 = 0x12 ∧
    (0x14000000 : Word).extractLsb' 24 8 = 0x14 ∧ (0x13000000 : Word).extractLsb' 24 8 ≠ 0x02 ∧
    (0x13000000 : Word).extractLsb' 24 8 ≠ 0x12 ∧ (0x13000000 : Word).extractLsb' 24 8 ≠ 0x14 := by decide

/-- Each clause of R72 at the ends of its range: the unassigned opcodes, and one reserved bit of each format, the lowest
and the highest. -/
theorem witness_IllegalEncodings :
    [0x00, 0x04, 0x0F, 0x16, 0xFF].all (fun n : Nat =>
      n == 0 || (decide (0x04 ≤ n) && decide (n ≤ 0x0F)) || decide (0x16 ≤ n)) = true ∧
    (0x01000200 : Word).extractLsb' 9 15 ≠ 0 ∧ (0x01800000 : Word).extractLsb' 9 15 ≠ 0 ∧
    (0x02000008 : Word).extractLsb' 3 21 ≠ 0 ∧ (0x02800000 : Word).extractLsb' 3 21 ≠ 0 ∧
    (0x03000001 : Word).extractLsb' 0 24 ≠ 0 ∧ (0x10800000 : Word).extractLsb' 0 24 ≠ 0 ∧
    (0x11010000 : Word).extractLsb' 16 8 ≠ 0 ∧ (0x12000001 : Word).extractLsb' 0 24 ≠ 0 ∧
    (0x13020000 : Word).extractLsb' 17 7 ≠ 0 ∧ (0x14000002 : Word).extractLsb' 1 23 ≠ 0 ∧
    (0x15000800 : Word).extractLsb' 11 13 ≠ 0 ∧ (2 : Word).toNat ≤ ([1, 2, 3] : List Byte).length ∧
    (0x12000000 : Word).extractLsb' 24 8 = 0x12 ∧ (0x12000000 : Word).extractLsb' 0 24 = 0 ∧
    (0x14000001 : Word).extractLsb' 24 8 = 0x14 ∧ (0x14000001 : Word).extractLsb' 1 23 = 0 ∧
    (0x02000007 : Word).extractLsb' 24 8 = 0x02 ∧ (0x02000007 : Word).extractLsb' 3 21 = 0 := by decide

/-- A complete illegal command before a running block: R72's last clause, R171. -/
theorem witness_illegal_state : (sent [0x01800001] []).rst = false ∧ (sent [0x01800001] []).port = [] ∧
    (sent [0x01800001] []).errInv = false ∧
    readCommand (sent [0x01800001] []).cmdIn (sent [0x01800001] []).dataIn = .illegal .reservedBits [] [] := by decide

theorem witness_StepRunsTheDecodedCommand : (sent [0x03000000] []).rst = false ∧ (sent [0x03000000] []).port = [] ∧
    readCommand (sent [0x03000000] []).cmdIn (sent [0x03000000] []).dataIn = .command .stat [] [] ∧
    exec .stat { sent [0x03000000] [] with cmdIn := [], dataIn := [] } =
      .next { State.reset with port := [.response ⟨.ok, 0⟩] } := ⟨rfl, rfl, rfl, rfl⟩

/-- Each clause of R198: ENC one byte short, a missing second word, an empty channel, and a reset of a partial command. -/
theorem witness_IncompleteCommandHolds : (sent [0x02000000, 2] [1]).rst = false ∧ (sent [0x02000000, 2] [1]).port = [] ∧
    readCommand [0x02000000, 2] [1] = .incomplete ∧ (0x14000000 : Word).extractLsb' 24 8 ∈ [0x02#8, 0x12#8, 0x14#8] ∧
    (assertReset (sent [0x02000000, 2] [1])).rst = true ∧
    (assertReset (sent [0x02000000, 2] [1])).cmdIn.length ≤ 2 := by decide

/-- Each clause of R199. -/
theorem witness_OutputBackpressureHolds : (blocked false).rst = false ∧ (blocked false).port ≠ [] ∧
    (blocked false).ready = false ∧ (blocked true).ready = true ∧ (assertReset (blocked false)).rst = true := by decide

/-- A running block, the hypothesis of each command's own effect; a FAULTED one, that of its refusal. -/
theorem witness_running_and_faulted : State.reset.errInv = false ∧ (faultedWith [] []).errInv = true := by decide

/-- A running, configured block and an ENC with its data bytes: L = 0, 1, 59, 60 (the ENC statements). -/
theorem witness_complete_enc : (session 0x34 .little 0).errInv = false ∧ (session 0x34 .little 0).cfgd = true ∧
    [0, 1, 59, 60].all (fun n : Nat => (rampBytes n).length == (BitVec.ofNat 32 n).toNat) = true := by decide

/-- A running block that is not configured (R172), and its whole command on the channels. -/
theorem witness_NotConfiguredError : State.reset.errInv = false ∧ State.reset.cfgd = false ∧
    isEnc (.enc false false false 0 []) = true ∧ isEnc .stat = false ∧
    readCommand (sent [0x02000000, 0] []).cmdIn (sent [0x02000000, 0] []).dataIn =
      .command (.enc false false false 0 []) [] [] := by decide

/-- An ill-formed ENC, one byte short (InvariantFaultError). -/
theorem witness_InvariantFaultError : ([1] : List Byte).length < (2 : Word).toNat ∧
    (session 0x34 .little 0).cfgd = true ∧ (session 0x34 .little 0).errInv = false := by decide

/-- The hypotheses of the reading clauses of the nine command statements (R63 to R70), an illegal word of each. -/
theorem witness_reserved_of_each_command :
    [(0x01000200, Opcode.cfg), (0x02000008, .enc), (0x03000001, .stat), (0x10000001, .hostend), (0x11010000, .swap16),
      (0x12000001, .swap32), (0x13020000, .comp16), (0x14000002, .comp32), (0x15000800, .rdbit)].all
      (fun p : Word × Opcode => opcField p.1 == opcodeNumber p.2 && !reservedClear p.2 p.1) = true := by decide

/-- The state of the last clause of R124 and of its example. -/
theorem witness_StatCommand : (session 0x34 .little 3).seq = 3 ∧ (session 0x34 .little 3).swid = 0x34 ∧
    (session 0x34 .little 3).we = .little ∧ (session 0x34 .little 3).swap = false ∧
    (session 0x34 .little 3).hostEndian = .little ∧ (session 0x34 .little 3).cfgd = true ∧
    (session 0x34 .little 3).errIll = false ∧ (session 0x34 .little 3).errNcfg = false ∧
    exec .stat (session 0x34 .little 3) =
      .next { session 0x34 .little 3 with port := [.response ⟨.ok, 0x08340003⟩] } := ⟨rfl, rfl, rfl, rfl, rfl, rfl, rfl, rfl, rfl⟩

/-- The state of the example of R140. -/
theorem witness_EncCommand_example : (session 0x34 .little 0).swid = 0x34 ∧ (session 0x34 .little 0).swap = false ∧
    (session 0x34 .little 0).seq = 0 := by decide

/-- A reset pending, with the step it takes (the reset clauses of R25 to R29, R121, R123, R190, R194). -/
theorem witness_reset_pending : (assertReset (session 0x34 .big 5)).rst = true ∧
    step (assertReset (session 0x34 .big 5)) = .next .reset := ⟨rfl, rfl⟩

/-- No reset pending and a step that sets an error bit; a channel whose head is no CFG and no ENC (R29, R123, R25). -/
theorem witness_no_reset_pending : (sent [0x03000000] []).rst = false ∧ isCfg .stat = false ∧ isEnc .stat = false ∧
    readCommand (sent [0x03000000] []).cmdIn (sent [0x03000000] []).dataIn = .command .stat [] [] ∧
    after (step (sent [0] [])) State.errIll = some true := by decide

/-- A train whose length is no multiple of 65536 (SideEffectsOnlyOfEncCfgAndErrors). -/
theorem witness_two_trains_differ : (2 + specChunks ([1] : List Byte).length) % 65536 ≠ 0 := by decide

/-- `off + rem = L` with fuel to spare: at the start, in the middle, and after the last full chunk (R153). -/
theorem witness_ChunkerCountersAgree : 0 + 60 = (rampBytes 60).length ∧ 59 + 1 = (rampBytes 60).length ∧
    60 + 0 = (rampBytes 60).length ∧ 60 ≤ 60 := by decide

/-- A session of two ENCs and a STAT (R125). -/
theorem witness_SessionFramesAreNumberedFromZero :
    State.reset.errInv = false ∧ [Instr.enc false false false 1 [9], .stat, .enc true false false 0 []].all
      (fun i => wellFormed i && !isCfg i) = true := by decide

/-- Both sides of R197's threshold. -/
theorem witness_LongTrainsReuseIds : ¬ 65536 < 2 + specChunks 3866506 ∧ 65536 < 2 + specChunks 3866507 := by decide

/-- Frames of the three kinds within R82, the shortest and the longest Data frame among them. -/
theorem witness_FrameBoundariesAreFound :
    [[1, 0, 0, 1, 0, 0, 0, 0], [1, 0, 0, 2, 1, 9], [1, 0, 0, 2, 59] ++ rampBytes 59, [1, 0, 0, 3, 7]].all frameOk =
      true := by decide

/-- An error response at the end of the output (R176), for each error that an instruction raises. -/
theorem witness_ErrorsArePrecise :
    answer (.enc false false false 0 []) .reset = some [.response ⟨.notConfigured, 0⟩] ∧
    answer (.enc false false false 1 []) (session 1 .little 0) = some [.response ⟨.invariantFault, 0⟩] ∧
    answer .hostend (faultedWith [] []) = some [.response ⟨.faulted, 0⟩] := by decide

/-- An illegal word and a refused command before a FAULTED block, and the one step that leaves FAULTED (R174). -/
theorem witness_FaultedBlockRefusesAllButStat : (faultedWith [0] []).rst = false ∧ (faultedWith [0] []).port = [] ∧
    readCommand (faultedWith [0] []).cmdIn (faultedWith [0] []).dataIn = .illegal .unassignedOpcode [] [] ∧
    readCommand (faultedWith [0x10000000] []).cmdIn (faultedWith [0x10000000] []).dataIn = .command .hostend [] [] ∧
    Instr.hostend ≠ .stat ∧ after (step (assertReset (faultedWith [0] []))) State.errInv = some false := by decide

/-- Every kind of reading before a block with no reset and no waiting output (R175). -/
theorem witness_ErrorPriority : (sent [] []).rst = false ∧ (sent [] []).port = [] ∧
    readCommand (sent [] []).cmdIn (sent [] []).dataIn = .incomplete ∧
    readCommand [0] [] = .illegal .unassignedOpcode [] [] ∧ readCommand [0x03000000] [] = .command .stat [] [] := by decide

/-- A complete command and then a partial one, at the reset of R191. -/
theorem witness_ResetDiscardsOnlyThePartialCommand :
    (assertReset (sent [0x02000000, 1, 0x02000000, 2] [7, 8])).rst = true ∧
    wellFormed (.enc false false false 1 [7]) = true ∧ ([0x02000000, 2] : List Word).length ≤ 2 ∧
    readCommand [0x02000000, 2] [8] = .incomplete ∧
    (assertReset (sent [0x02000000, 1, 0x02000000, 2] [7, 8])).cmdIn =
      ([Instr.enc false false false 1 [7]].map encodeWords).flatten ++ [0x02000000, 2] ∧
    (assertReset (sent [0x02000000, 1, 0x02000000, 2] [7, 8])).dataIn =
      ([Instr.enc false false false 1 [7]].map encodeData).flatten ++ [8] := by decide

/-- A conforming state that has emitted a train, and its next step (EveryStepKeepsConformance). -/
theorem witness_EveryStepKeepsConformance : Conforming { session 1 .big 5 with
      cmdIn := [0x03000000], taken := [.train [[1, 0, 0, 1, 0, 0, 0, 0], [1, 0, 1, 3, 0]], .response ⟨.ok, 2⟩] } ∧
    (after (step { session 1 .big 5 with cmdIn := [0x03000000] }) State.seq).isSome = true := by decide

/-- A host with nothing on the channels that accepts output (IssuedCommandIsAnswered). -/
theorem witness_IssuedCommandIsAnswered : wellFormed .stat = true ∧ State.reset.rst = false ∧ State.reset.port = [] ∧
    State.reset.ready = true ∧ State.reset.cmdIn = [] ∧ State.reset.dataIn = [] := by decide

/-- Complete commands, an illegal one among them, an incomplete one, and a block with nothing waiting (R201). -/
theorem witness_RunsEndWithOneObservation :
    [⟨[0], []⟩, commandOf (.enc true false false 1 [9]), commandOf .stat].all isComplete = true ∧
    State.reset.rst = false ∧ State.reset.port = [] ∧ State.reset.cmdIn = [] ∧ State.reset.dataIn = [] ∧
    [false, true, true].count true < 3 ∧ ¬ [true, false, true, true].count true < 3 ∧
    readCommand [0x02000000, 2] [7] = .incomplete := by decide

/-- A session with an illegal command and an ENC behind its CFG (R125). -/
theorem witness_ObservedSessionsAreNumberedFromZero :
    (∀ c ∈ [⟨[0], []⟩, commandOf (.enc true false false 1 [9])],
      isComplete c = true ∧ ∀ id e, c ≠ commandOf (.cfg id e)) ∧ State.reset.errInv = false ∧
    2 < [true, false, true, true].count true := by
  refine ⟨?_, rfl, by decide⟩
  simp only [List.forall_mem_cons, List.not_mem_nil, false_imp_iff, implies_true, and_true]
  refine ⟨⟨rfl, fun id e h => ?_⟩, rfl, fun id e h => ?_⟩
  · have := congrArg (fun c => c.words.map opcField) h
    cases e <;> exact absurd this (by revert id; decide)
  · have := congrArg (fun c => c.words.length) h
    exact absurd this (by simp [commandOf, encodeWords])

end Sys2Proof.Tests
end

section
/-! HOST_ENDIAN is a parameter of the block (00_scope.md R9): no operation of the model writes it. The facts go up from
the shared operations through an instruction to a step. -/

namespace Sys2Proof.Machine

@[simp] theorem raiseIllegal_hostEndian (s : State) : (raiseIllegal s).hostEndian = s.hostEndian := by
  cases hf : s.errInv with
  | true => rw [raiseIllegal_faulted hf, refuseFaulted_hostEndian]
  | false => rw [raiseIllegal_running hf, raise_hostEndian]

@[simp] theorem encodeBuffer_hostEndian (r v t : Bool) (len : Word) (buf : List Byte) (s : State) :
    (encodeBuffer r v t len buf s).hostEndian = s.hostEndian := by
  obtain ⟨-, h⟩ | ⟨-, train, c, -, h⟩ | ⟨-, e, -, h⟩ := encodeBuffer_cases r v t len buf s
  · rw [h, raise_hostEndian]
  · rw [h, deliverTrain_hostEndian]
  · rw [h, raise_hostEndian]

/-- A command ends in a next state, and HOST_ENDIAN is in it what it was. -/
theorem exec_hostEndian (i : Instr) (s : State) : ∃ t, exec i s = .next t ∧ t.hostEndian = s.hostEndian := by
  obtain ⟨-, -, h⟩ | ⟨-, -, v, h⟩ | ⟨-, swid, we, -, h⟩ | ⟨-, r, v, t, len, buf, -, h⟩ := exec_cases i s
  · exact ⟨_, h, refuseFaulted_hostEndian s⟩
  · exact ⟨_, h, respondOk_hostEndian v s⟩
  · exact ⟨_, h, configure_hostEndian swid we s⟩
  · exact ⟨_, h, encodeBuffer_hostEndian r v t len buf s⟩

/-- A step ends in a next state, and HOST_ENDIAN is in it what it was (70_reset_and_hazards.md R192 for a reset). -/
theorem step_hostEndian (s : State) : ∃ t, step s = .next t ∧ t.hostEndian = s.hostEndian := by
  obtain ⟨-, h⟩ | ⟨-, -, h⟩ | ⟨-, -, -, h⟩ | ⟨-, -, why, ws, ds, -, h⟩ | ⟨-, -, i, ws, ds, -, h⟩ := step_cases s
  · exact ⟨_, h, takeReset_hostEndian s⟩
  · exact ⟨_, h, accept_hostEndian s⟩
  · exact ⟨_, h, rfl⟩
  · exact ⟨_, h, by simp⟩
  · obtain ⟨u, hu, hkeep⟩ := exec_hostEndian i (consumeInput ws ds s)
    exact ⟨accept u, by rw [h, hu, settle], by rw [accept_hostEndian, hkeep, consumeInput_hostEndian]⟩

/-- Settles O30: a step has one outcome, and `step_hostEndian` names it. -/
theorem hostEndianNeverChanges : Obligations.HostEndianNeverChanges := by
  unfold Obligations.HostEndianNeverChanges
  intro s t ht
  obtain ⟨u, hu, hkeep⟩ := step_hostEndian s
  obtain rfl : u = t := Host.Outcome.next.inj (hu.symm.trans ht)
  exact hkeep

end Sys2Proof.Machine
end

section
/-! What `step` and `exec` answer, as one inversion lemma each for a given next state; the step lemmas for a reset and for
a complete command (10_state.md R20, 70_reset_and_hazards.md R191). -/

namespace Sys2Proof.Machine

theorem step_of_reset {s : State} (hr : s.rst = true) : step s = .next (takeReset s) := by
  simp [step, cycle, hr]

theorem eq_takeReset_of_step {s t : State} (hr : s.rst = true) (h : step s = .next t) : t = takeReset s :=
  (Host.Outcome.next.inj ((step_of_reset hr).symm.trans h)).symm

theorem step_of_command {s : State} {i : Instr} {ws : List Word} {ds : List Byte} (hr : s.rst = false)
    (hp : s.port = []) (hc : readCommand s.cmdIn s.dataIn = .command i ws ds) :
    step s = settle (exec i (consumeInput ws ds s)) := by
  simp [step, cycle, hr, hp, hc]

/-- Everything the next state of an instruction can be: a refusal, an answer that writes nothing, a configured block, or
one of the three ends of an ENC (42_encode.md R140). -/
theorem exec_next_cases {i : Instr} {s t : State} (h : exec i s = .next t) :
    (s.errInv = true ∧ i ≠ .stat ∧ t = refuseFaulted s) ∨
    (isCfg i = false ∧ isEnc i = false ∧ ∃ v, t = respondOk v s) ∨
    (s.errInv = false ∧ ∃ swid we, i = .cfg swid we ∧ t = respondOk 0 (configure swid we s)) ∨
    (s.errInv = false ∧ isEnc i = true ∧ s.cfgd = false ∧ t = raise .notConfigured s) ∨
    (s.errInv = false ∧ isEnc i = true ∧ s.cfgd = true ∧ ∃ train c, t = deliverTrain train c s) ∨
    (s.errInv = false ∧ isEnc i = true ∧ s.cfgd = true ∧ t = raise .invariantFault s) := by
  have eq_of_exec {u : State} (hu : exec i s = .next u) : t = u := Host.Outcome.next.inj (h.symm.trans hu)
  obtain ⟨hf, hi, hu⟩ | ⟨hcfg, henc, v, hu⟩ | ⟨hf, swid, we, hi, hu⟩ | ⟨hf, r, v, test, len, buf, rfl, hu⟩ :=
    exec_cases i s
  · exact .inl ⟨hf, hi, eq_of_exec hu⟩
  · exact .inr (.inl ⟨hcfg, henc, v, eq_of_exec hu⟩)
  · exact .inr (.inr (.inl ⟨hf, swid, we, hi, eq_of_exec hu⟩))
  · have ht := eq_of_exec hu
    obtain ⟨hc, hb⟩ | ⟨hc, train, c, -, hb⟩ | ⟨hc, -, -, hb⟩ := encodeBuffer_cases r v test len buf s
    · exact .inr (.inr (.inr (.inl ⟨hf, rfl, hc, ht.trans hb⟩)))
    · exact .inr (.inr (.inr (.inr (.inl ⟨hf, rfl, hc, train, c, ht.trans hb⟩))))
    · exact .inr (.inr (.inr (.inr (.inr ⟨hf, rfl, hc, ht.trans hb⟩))))

theorem raiseIllegal_cases (s : State) :
    (s.errInv = true ∧ raiseIllegal s = refuseFaulted s) ∨
    (s.errInv = false ∧ raiseIllegal s = raise .illegalCommand s) := by
  cases hf : s.errInv with
  | true => exact .inl ⟨rfl, raiseIllegal_faulted hf⟩
  | false => exact .inr ⟨rfl, raiseIllegal_running hf⟩

/-- Everything the next state of a step without a reset can be: output accepted, nothing changed, an illegal command
answered, or a legal one executed. -/
theorem step_next_cases {s t : State} (hr : s.rst = false) (h : step s = .next t) :
    (s.port ≠ [] ∧ t = accept s) ∨
    (s.port = [] ∧ readCommand s.cmdIn s.dataIn = .incomplete ∧ t = s) ∨
    (s.port = [] ∧ ∃ why ws ds, readCommand s.cmdIn s.dataIn = .illegal why ws ds ∧
      t = accept (raiseIllegal (consumeInput ws ds s))) ∨
    (s.port = [] ∧ ∃ i ws ds u, readCommand s.cmdIn s.dataIn = .command i ws ds ∧
      exec i (consumeInput ws ds s) = .next u ∧ t = accept u) := by
  have eq_of_step {u : State} (hu : step s = .next u) : t = u := Host.Outcome.next.inj (h.symm.trans hu)
  obtain ⟨hr', -⟩ | ⟨-, hp, hu⟩ | ⟨-, hp, hc, hu⟩ | ⟨-, hp, why, ws, ds, hc, hu⟩ | ⟨-, hp, i, ws, ds, hc, hu⟩ :=
    step_cases s
  · exact absurd (hr.symm.trans hr') Bool.false_ne_true
  · exact .inl ⟨hp, eq_of_step hu⟩
  · exact .inr (.inl ⟨hp, hc, eq_of_step hu⟩)
  · exact .inr (.inr (.inl ⟨hp, why, ws, ds, hc, eq_of_step hu⟩))
  · obtain ⟨u, he, -⟩ := exec_hostEndian i (consumeInput ws ds s)
    have hs : step s = .next (accept u) := by rw [hu, he, settle]
    exact .inr (.inr (.inr ⟨hp, i, ws, ds, u, hc, he, eq_of_step hs⟩))

/-- Settles O6: `step_of_command`, and `accept` at the end of the command. -/
theorem stepRunsTheDecodedCommand : Obligations.StepRunsTheDecodedCommand := by
  unfold Obligations.StepRunsTheDecodedCommand
  intro s t i ws ds hr hp hc he
  have hrun : exec i (consumeInput ws ds s) = .next t := he
  rw [step_of_command hr hp hc, hrun, settle, accept]

/-- Settles O10: each end that `exec_next_cases` names presents one response, and a delivered train before it. -/
theorem oneResponsePerCommand : Obligations.OneResponsePerCommand := by
  unfold Obligations.OneResponsePerCommand
  intro i s t h
  obtain ⟨-, -, rfl⟩ | ⟨-, henc, v, rfl⟩ | ⟨-, swid, we, rfl, rfl⟩ | ⟨-, -, -, rfl⟩ | ⟨-, henc, -, train, c, rfl⟩ |
    ⟨-, -, -, rfl⟩ := exec_next_cases h
  · exact ⟨.faulted, 0, .inl ⟨refuseFaulted_port s, by simp⟩⟩
  · exact ⟨.ok, v, .inl ⟨respondOk_port v s, by simp [henc]⟩⟩
  · exact ⟨.ok, 0, .inl ⟨respondOk_port 0 _, by simp [isEnc]⟩⟩
  · exact ⟨.notConfigured, 0, .inl ⟨raise_port .notConfigured s, by simp⟩⟩
  · exact ⟨.ok, _, .inr ⟨henc, train, deliverTrain_port train c s⟩⟩
  · exact ⟨.invariantFault, 0, .inl ⟨raise_port .invariantFault s, by simp⟩⟩

end Sys2Proof.Machine
end

section
/-! SWID, WE, SWAP and CFGD are written by CFG and by reset only (10_state.md R25 to R28): every other operation keeps
them, so every other instruction and step does. -/

namespace Sys2Proof.Machine

/-- The four configuration registers of `t` are those of `s`. -/
def SameConfiguration (s t : State) : Prop :=
  t.swid = s.swid ∧ t.we = s.we ∧ t.swap = s.swap ∧ t.cfgd = s.cfgd

theorem raiseIllegal_sameConfiguration (s : State) : SameConfiguration s (raiseIllegal s) := by
  obtain ⟨-, h⟩ | ⟨-, h⟩ := raiseIllegal_cases s <;> simp [SameConfiguration, h]

theorem exec_sameConfiguration {i : Instr} {s t : State} (hi : isCfg i = false) (h : exec i s = .next t) :
    SameConfiguration s t := by
  obtain ⟨-, -, rfl⟩ | ⟨-, -, v, rfl⟩ | ⟨-, swid, we, rfl, -⟩ | ⟨-, -, -, rfl⟩ | ⟨-, -, -, train, c, rfl⟩ |
    ⟨-, -, -, rfl⟩ := exec_next_cases h
  · simp [SameConfiguration]
  · simp [SameConfiguration]
  · simp [isCfg] at hi
  · simp [SameConfiguration]
  · simp [SameConfiguration]
  · simp [SameConfiguration]

theorem step_sameConfiguration {s t : State} (hr : s.rst = false) (h : step s = .next t)
    (hno : ∀ i ws ds, readCommand s.cmdIn s.dataIn = .command i ws ds → isCfg i = false) :
    SameConfiguration s t := by
  obtain ⟨-, rfl⟩ | ⟨-, -, rfl⟩ | ⟨-, why, ws, ds, -, rfl⟩ | ⟨-, i, ws, ds, u, hc, he, rfl⟩ := step_next_cases hr h
  · simp [SameConfiguration]
  · simp [SameConfiguration]
  · simpa [SameConfiguration] using raiseIllegal_sameConfiguration (consumeInput ws ds s)
  · simpa [SameConfiguration] using exec_sameConfiguration (hno i ws ds hc) he

/-- Settles O27. -/
theorem configurationWrittenOnlyByCfgAndReset : Obligations.ConfigurationWrittenOnlyByCfgAndReset := by
  unfold Obligations.ConfigurationWrittenOnlyByCfgAndReset
  exact ⟨fun _ _ _ => exec_sameConfiguration, fun _ _ => step_sameConfiguration⟩

end Sys2Proof.Machine
end

section
/-! Where each register stands in the status word (10_state.md R38). -/

namespace Sys2Proof.Machine

@[simp] theorem endianBit_getElem_zero (e : Endian) : (endianBit e)[0] = decide (e = .big) := by
  cases e <;> rfl

theorem statusWord_seq (s : State) : (statusWord s).extractLsb' 0 16 = s.seq := by
  have := s.seq.isLt
  apply BitVec.eq_of_toNat_eq
  rw [toNat_field, toNat_statusWord]
  omega

theorem statusWord_swid (s : State) : (statusWord s).extractLsb' 16 8 = s.swid := by
  have := s.seq.isLt
  have := s.swid.isLt
  apply BitVec.eq_of_toNat_eq
  rw [toNat_field, toNat_statusWord]
  omega

theorem statusWord_we (s : State) : (statusWord s).getLsbD 24 = decide (s.we = .big) := by
  simp only [statusWord, BitVec.getLsbD_append]; simp

theorem statusWord_swap (s : State) : (statusWord s).getLsbD 25 = s.swap := by
  simp only [statusWord, BitVec.getLsbD_append]; simp

theorem statusWord_hostEndian (s : State) : (statusWord s).getLsbD 26 = decide (s.hostEndian = .big) := by
  simp only [statusWord, BitVec.getLsbD_append]; simp

theorem statusWord_cfgd (s : State) : (statusWord s).getLsbD 27 = s.cfgd := by
  simp only [statusWord, BitVec.getLsbD_append]; simp

theorem statusWord_errIll (s : State) : (statusWord s).getLsbD 28 = s.errIll := by
  simp only [statusWord, BitVec.getLsbD_append]; simp

theorem statusWord_errNcfg (s : State) : (statusWord s).getLsbD 29 = s.errNcfg := by
  simp only [statusWord, BitVec.getLsbD_append]; simp

theorem statusWord_errInv (s : State) : (statusWord s).getLsbD 30 = s.errInv := by
  simp only [statusWord, BitVec.getLsbD_append]; simp

theorem statusWord_top_bit (s : State) : (statusWord s).getLsbD 31 = false := by
  simp only [statusWord, BitVec.getLsbD_append]; simp

/-- Settles O24: one lemma for each field, and the two reset states. -/
theorem statusWordLayout : Obligations.StatusWordLayout := by
  unfold Obligations.StatusWordLayout
  refine ⟨fun s => ?_, by decide, by decide⟩
  exact ⟨statusWord_seq s, statusWord_swid s, statusWord_we s, statusWord_swap s, statusWord_hostEndian s,
    statusWord_cfgd s, statusWord_errIll s, statusWord_errNcfg s, statusWord_errInv s, statusWord_top_bit s⟩

end Sys2Proof.Machine
end

section
/-! CFGD (10_state.md R28): who writes it, and that ENC needs it. -/

namespace Sys2Proof.Machine

theorem exec_cfg_running (swid : Byte) (we : Endian) {s : State} (hf : s.errInv = false) :
    exec (.cfg swid we) s = .next (respondOk 0 (configure swid we s)) :=
  congrArg Host.Outcome.next (unlessFaulted_running _ hf)

/-- An ENC in an unconfigured block that is not FAULTED (60_exceptions.md R172). -/
theorem exec_enc_unconfigured {i : Instr} {s t : State} (hi : isEnc i = true) (hf : s.errInv = false)
    (hc : s.cfgd = false) (h : exec i s = .next t) : t = raise .notConfigured s := by
  obtain ⟨hf', -⟩ | ⟨-, henc, -⟩ | ⟨-, swid, we, rfl, -⟩ | ⟨-, -, -, ht⟩ | ⟨-, -, hc', -⟩ | ⟨-, -, hc', -⟩ :=
    exec_next_cases h
  · simp [hf] at hf'
  · simp [hi] at henc
  · simp [isEnc] at hi
  · exact ht
  · simp [hc] at hc'
  · simp [hc] at hc'

/-- Settles O28. -/
theorem configuredBit : Obligations.ConfiguredBit := by
  unfold Obligations.ConfiguredBit
  refine ⟨fun s t hr h => ?reset, fun swid we s hf => ?cfg, fun i s t hi h => ?others, fun i s t hi hf hc h => ?enc,
    statusWord_cfgd⟩
  case reset => rw [eq_takeReset_of_step hr h, takeReset_cfgd]
  case cfg => exact ⟨_, exec_cfg_running swid we hf, by simp⟩
  case others =>
    obtain ⟨-, -, -, hcfgd⟩ := exec_sameConfiguration hi h
    exact hcfgd
  case enc => rw [exec_enc_unconfigured hi hf hc h, raise_port, causeStatus]

end Sys2Proof.Machine
end

section
/-! The error bits are sticky (10_state.md R29): every operation but a reset keeps the ones that are set. -/

namespace Sys2Proof.Machine

/-- The error bits set in `s` are set in `t`. -/
def KeepsErrors (s t : State) : Prop :=
  (s.errIll = true → t.errIll = true) ∧ (s.errNcfg = true → t.errNcfg = true) ∧ (s.errInv = true → t.errInv = true)

theorem raise_keepsErrors (e : ErrorCause) (s : State) : KeepsErrors s (raise e s) := by
  simp +contextual [KeepsErrors]

theorem raiseIllegal_keepsErrors (s : State) : KeepsErrors s (raiseIllegal s) := by
  obtain ⟨-, h⟩ | ⟨-, h⟩ := raiseIllegal_cases s
  · simp [KeepsErrors, h]
  · exact h ▸ raise_keepsErrors .illegalCommand s

theorem exec_keepsErrors {i : Instr} {s t : State} (h : exec i s = .next t) : KeepsErrors s t := by
  obtain ⟨-, -, rfl⟩ | ⟨-, -, v, rfl⟩ | ⟨-, swid, we, -, rfl⟩ | ⟨-, -, -, rfl⟩ | ⟨-, -, -, train, c, rfl⟩ |
    ⟨-, -, -, rfl⟩ := exec_next_cases h
  · simp [KeepsErrors]
  · simp [KeepsErrors]
  · simp [KeepsErrors]
  · exact raise_keepsErrors .notConfigured s
  · simp [KeepsErrors]
  · exact raise_keepsErrors .invariantFault s

theorem step_keepsErrors {s t : State} (hr : s.rst = false) (h : step s = .next t) : KeepsErrors s t := by
  obtain ⟨-, rfl⟩ | ⟨-, -, rfl⟩ | ⟨-, why, ws, ds, -, rfl⟩ | ⟨-, i, ws, ds, u, -, he, rfl⟩ := step_next_cases hr h
  · simp [KeepsErrors]
  · simp [KeepsErrors]
  · simpa [KeepsErrors] using raiseIllegal_keepsErrors (consumeInput ws ds s)
  · simpa [KeepsErrors] using exec_keepsErrors he

/-- Settles O29. -/
theorem errorBitsAreSticky : Obligations.ErrorBitsAreSticky := by
  unfold Obligations.ErrorBitsAreSticky
  refine ⟨fun s t hr h => ?reset, fun _ _ => step_keepsErrors, fun s => ?raised,
    fun s => ⟨statusWord_errIll s, statusWord_errNcfg s, statusWord_errInv s⟩⟩
  case reset =>
    rw [eq_takeReset_of_step hr h]
    exact ⟨takeReset_errIll s, takeReset_errNcfg s, takeReset_errInv s⟩
  case raised => exact ⟨rfl, rfl, rfl⟩

end Sys2Proof.Machine
end

section
/-! Output that a block presented or delivered earlier does not bear on what it does next (42_encode.md R154): an
instruction commutes with putting earlier output before a state's own, on the port and in the host's record, and a step
with putting it in the record. -/

namespace Sys2Proof.Machine

/-- `s` with earlier output before its own: `delivered` at the start of the host's record, `waiting` at the start of the
port. -/
def withEarlier (delivered waiting : List Output) (s : State) : State :=
  { s with taken := delivered ++ s.taken, port := waiting ++ s.port }

theorem present_withEarlier (delivered waiting out : List Output) (s : State) :
    present out (withEarlier delivered waiting s) = withEarlier delivered waiting (present out s) := by
  simp [present, withEarlier]

theorem respond_withEarlier (delivered waiting : List Output) (st : Status) (v : Word) (s : State) :
    respond st v (withEarlier delivered waiting s) = withEarlier delivered waiting (respond st v s) :=
  present_withEarlier ..

theorem raise_withEarlier (delivered waiting : List Output) (e : ErrorCause) (s : State) :
    raise e (withEarlier delivered waiting s) = withEarlier delivered waiting (raise e s) := by
  have hsticky : setSticky e (withEarlier delivered waiting s) = withEarlier delivered waiting (setSticky e s) := by
    cases e <;> rfl
  rw [raise, hsticky, respond_withEarlier, raise]

theorem deliverTrain_withEarlier (delivered waiting : List Output) (train : List Frame) (c : Half) (s : State) :
    deliverTrain train c (withEarlier delivered waiting s) = withEarlier delivered waiting (deliverTrain train c s) := by
  simp [deliverTrain, respondOk, respond, present, withEarlier]

theorem unlessFaulted_withEarlier (delivered waiting : List Output) {s t t' : State}
    (h : t' = withEarlier delivered waiting t) :
    unlessFaulted (withEarlier delivered waiting s) t' = withEarlier delivered waiting (unlessFaulted s t) := by
  cases hf : s.errInv with
  | true =>
    have hf' : (withEarlier delivered waiting s).errInv = true := hf
    rw [unlessFaulted_faulted t hf, unlessFaulted_faulted t' hf']
    exact respond_withEarlier ..
  | false =>
    have hf' : (withEarlier delivered waiting s).errInv = false := hf
    rw [unlessFaulted_running t hf, unlessFaulted_running t' hf', h]

theorem raiseIllegal_withEarlier (delivered waiting : List Output) (s : State) :
    raiseIllegal (withEarlier delivered waiting s) = withEarlier delivered waiting (raiseIllegal s) :=
  unlessFaulted_withEarlier _ _ (raise_withEarlier ..)

/-- An ENC computes its train from SWID, SWAP, SEQ and its operands alone. -/
theorem encodeBuffer_withEarlier (delivered waiting : List Output) (r v t : Bool) (len : Word) (buf : List Byte)
    (s : State) :
    encodeBuffer r v t len buf (withEarlier delivered waiting s) =
      withEarlier delivered waiting (encodeBuffer r v t len buf s) := by
  cases hc : s.cfgd with
  | false => simpa [encodeBuffer, withEarlier, hc] using raise_withEarlier delivered waiting .notConfigured s
  | true =>
    cases he : encodeTrain s.swid s.swap s.seq (packFlags r v t) len buf with
    | ok p => simpa [encodeBuffer, withEarlier, hc, he] using deliverTrain_withEarlier delivered waiting p.1 p.2 s
    | error e => simpa [encodeBuffer, withEarlier, hc, he] using raise_withEarlier delivered waiting .invariantFault s

theorem exec_withEarlier {i : Instr} {s t : State} (delivered waiting : List Output) (h : exec i s = .next t) :
    exec i (withEarlier delivered waiting s) = .next (withEarlier delivered waiting t) := by
  cases i with
  | stat =>
    cases h
    exact congrArg Host.Outcome.next (respond_withEarlier ..)
  | enc r v test len buf =>
    cases h
    exact congrArg Host.Outcome.next (unlessFaulted_withEarlier _ _ (encodeBuffer_withEarlier ..))
  | cfg swid we =>
    cases h
    exact congrArg Host.Outcome.next (unlessFaulted_withEarlier _ _ (respond_withEarlier _ _ _ _ (configure swid we s)))
  | _ =>
    cases h
    exact congrArg Host.Outcome.next (unlessFaulted_withEarlier _ _ (respond_withEarlier ..))

theorem accept_withEarlier (delivered : List Output) (s : State) :
    accept (withEarlier delivered [] s) = withEarlier delivered [] (accept s) := by
  cases hready : s.ready <;> simp [accept, withEarlier, hready]

theorem takeReset_withEarlier (delivered : List Output) (s : State) :
    takeReset (withEarlier delivered [] s) = withEarlier delivered [] (takeReset s) := by
  simp [takeReset, withEarlier]

theorem step_of_waiting_output {s : State} (hr : s.rst = false) (hp : s.port ≠ []) : step s = .next (accept s) := by
  simp [step, cycle, hr, hp]

theorem step_of_incomplete {s : State} (hr : s.rst = false) (hp : s.port = [])
    (hc : readCommand s.cmdIn s.dataIn = .incomplete) : step s = .next s := by
  simp [step, cycle, hr, hp, hc]

theorem step_of_illegal {s : State} {why : Reject} {ws : List Word} {ds : List Byte} (hr : s.rst = false)
    (hp : s.port = []) (hc : readCommand s.cmdIn s.dataIn = .illegal why ws ds) :
    step s = .next (accept (raiseIllegal (consumeInput ws ds s))) := by
  simp [step, cycle, hr, hp, hc, settle]

/-- The branch a step takes does not depend on the host's record, and each branch's effect commutes with a longer one. -/
theorem step_withEarlier {s t : State} (delivered : List Output) (h : step s = .next t) :
    step (withEarlier delivered [] s) = .next (withEarlier delivered [] t) := by
  cases hr : s.rst with
  | true =>
    have hreset : step (withEarlier delivered [] s) = .next (takeReset (withEarlier delivered [] s)) := step_of_reset hr
    rw [hreset, takeReset_withEarlier, eq_takeReset_of_step hr h]
  | false =>
    have hr' : (withEarlier delivered [] s).rst = false := hr
    obtain ⟨hp, rfl⟩ | ⟨hp, hc, rfl⟩ | ⟨hp, why, ws, ds, hc, rfl⟩ | ⟨hp, i, ws, ds, u, hc, he, rfl⟩ :=
      step_next_cases hr h
    · rw [step_of_waiting_output hr' hp, accept_withEarlier]
    · exact step_of_incomplete hr' hp hc
    · rw [step_of_illegal hr' hp hc, ← accept_withEarlier, ← raiseIllegal_withEarlier]
      rfl
    · have he' : exec i (consumeInput ws ds (withEarlier delivered [] s)) = .next (withEarlier delivered [] u) :=
        exec_withEarlier delivered [] he
      rw [step_of_command hr' hp hc, he', settle, accept_withEarlier]

/-- Settles O11: what the step appends is what it would record from an empty record (`step_withEarlier`). -/
theorem deliveredOutputIsNeverRead : Obligations.DeliveredOutputIsNeverRead := by
  unfold Obligations.DeliveredOutputIsNeverRead
  intro s t h
  obtain ⟨u, hu, -⟩ := step_hostEndian { s with taken := [] }
  have hstep (x : List Output) : step { s with taken := x } = .next { u with taken := x ++ u.taken } := by
    simpa [withEarlier] using step_withEarlier x hu
  obtain rfl : t = { u with taken := s.taken ++ u.taken } := Host.Outcome.next.inj (h.symm.trans (hstep s.taken))
  exact ⟨u.taken, rfl, hstep⟩

end Sys2Proof.Machine
end

section
/-! Which commands have side effects (20_memory.md R48): none but CFG and ENC does, and an ENC issued again starts its
train at another id. -/

namespace Sys2Proof.Machine

/-- What a command other than CFG and ENC does: one response and nothing else. -/
theorem exec_answers_only {i : Instr} (hcfg : isCfg i = false) (henc : isEnc i = false) (s : State) :
    ∃ r, exec i s = .next { s with port := s.port ++ [.response r] } := by
  obtain ⟨-, -, h⟩ | ⟨-, -, v, h⟩ | ⟨-, swid, we, rfl, -⟩ | ⟨-, r, v, t, len, buf, rfl, -⟩ := exec_cases i s
  · exact ⟨_, h⟩
  · exact ⟨_, h⟩
  · simp [isCfg] at hcfg
  · simp [isEnc] at henc

/-- Such a command gives its response whatever waits on the port. -/
theorem exec_answer_any_port {i : Instr} (hcfg : isCfg i = false) (henc : isEnc i = false) (s : State) :
    ∃ r, ∀ waiting, exec i { s with port := waiting } = .next { s with port := waiting ++ [.response r] } := by
  obtain ⟨r, h⟩ := exec_answers_only hcfg henc { s with port := [] }
  exact ⟨r, fun waiting => by simpa [withEarlier] using exec_withEarlier [] waiting h⟩

theorem exec_enc_complete (r v t : Bool) {len : Word} {buf : List Byte} {s : State} (hlen : buf.length = len.toNat)
    (hf : s.errInv = false) (hc : s.cfgd = true) :
    exec (.enc r v t len buf) s =
      .next (deliverTrain (specTrain s r v t len buf) (s.seq + BitVec.ofNat 16 (2 + specChunks len.toNat)) s) := by
  rw [← encodeBuffer_complete r v t hlen hc]
  exact congrArg Host.Outcome.next (unlessFaulted_running _ hf)

theorem framesOf_deliverTrain (train : List Frame) (c : Half) (s : State) :
    framesOf ((deliverTrain train c s).port.drop s.port.length) = train := by
  simp [framesOf, trainsOf]

theorem frameId_specStart (swid : Byte) (swap : Bool) (id : Half) (len : Word) :
    frameId (specStart swid swap id len) = e16 id swap := by
  cases swap <;> rfl

theorem byteOf_one_append_byteOf_zero (x : Half) : (byteOf 1 x ++ byteOf 0 x : Half) = x := by
  have := x.isLt
  apply BitVec.eq_of_toNat_eq
  rw [toNat_pair, byteOf, byteOf, toNat_field, toNat_field]
  omega

theorem e16_injective {x y : Half} {swap : Bool} (h : e16 x swap = e16 y swap) : x = y := by
  obtain ⟨hlow, hhigh⟩ : byteOf 0 x = byteOf 0 y ∧ byteOf 1 x = byteOf 1 y := by
    cases swap with
    | false => simpa [e16] using h
    | true => simpa [e16, and_comm] using h
  rw [← byteOf_one_append_byteOf_zero x, hlow, hhigh, byteOf_one_append_byteOf_zero]

theorem counter_ne_self {c : Half} {n : Nat} (h : n % 65536 ≠ 0) : c ≠ c + BitVec.ofNat 16 n := by
  intro hc
  have := c.isLt
  have := congrArg BitVec.toNat hc
  simp only [BitVec.toNat_add, BitVec.toNat_ofNat] at this
  omega

/-- Settles O31: `exec_answer_any_port`, and for two ENCs the Start frames' ids, SEQ before and after the first train. -/
theorem sideEffectsOnlyOfEncCfgAndErrors : Obligations.SideEffectsOnlyOfEncCfgAndErrors := by
  unfold Obligations.SideEffectsOnlyOfEncCfgAndErrors
  refine ⟨fun i s hcfg henc => ?answer, fun r v t len buf s hlen hf hc hcount => ?twice⟩
  case answer =>
    obtain ⟨resp, h⟩ := exec_answer_any_port hcfg henc s
    exact ⟨resp, h s.port, h _⟩
  case twice =>
    have hfirst := exec_enc_complete r v t hlen hf hc
    have hsecond (train : List Frame) (c : Half) := exec_enc_complete (s := deliverTrain train c s) r v t hlen
      ((deliverTrain_errInv ..).trans hf) ((deliverTrain_cfgd ..).trans hc)
    refine ⟨_, _, _, _, _, _, hfirst, hsecond _ _, framesOf_deliverTrain .., framesOf_deliverTrain .., ?_⟩
    rw [frameId_specStart, frameId_specStart, deliverTrain_swap, deliverTrain_seq, ← hlen]
    exact fun h => counter_ne_self hcount (e16_injective h)

end Sys2Proof.Machine
end

section
/-! A complete command on the channels (30_encoding.md R61, R65): its words and its data bytes, as many as its opcode
fixes. Reading such a command and being such a command are the same thing, and a legal reading's operands encode to the
words and bytes that were read. -/

namespace Sys2Proof

/-- The words and bytes at the head of the channels are a whole command, `w0` its first word. -/
def WholeCommand (w0 : Word) (tail : List Word) (data : List Byte) : Prop :=
  tail.length + 1 = commandWords (opcField w0) ∧ data.length = commandBytes (opcField w0) (tail.headD 0)

theorem commandWords_eq_two_of_commandBytes {opc : Byte} {w1 : Word} (h : commandBytes opc w1 ≠ 0) :
    commandWords opc = 2 := by
  by_cases henc : opc = 0x02
  · rw [henc]; rfl
  · exact absurd (if_neg henc) h

theorem commandBytes_of_one_word {opc : Byte} (h : commandWords opc = 1) (w1 : Word) : commandBytes opc w1 = 0 := by
  by_contra hne
  have := commandWords_eq_two_of_commandBytes hne
  omega

/-- A whole command is judged, whatever stands behind it. -/
theorem readCommand_whole {w0 : Word} {tail : List Word} {data : List Byte} (h : WholeCommand w0 tail data)
    (ws : List Word) (ds : List Byte) :
    readCommand (w0 :: tail ++ ws) (data ++ ds) = judge w0 (tail.headD 0) data ws ds := by
  obtain ⟨hw, hd⟩ := h
  rcases commandWords_cases (opcField w0) with hone | htwo
  · obtain rfl : tail = [] := List.eq_nil_of_length_eq_zero (by omega)
    obtain rfl : data = [] := List.eq_nil_of_length_eq_zero (hd.trans (commandBytes_of_one_word hone _))
    exact readCommand_one_word hone ws ds
  · obtain ⟨w1, rfl⟩ := List.length_eq_one_iff.mp (show tail.length = 1 by omega)
    simp only [List.headD_cons] at hd
    have hread := readCommand_two_words (w1 := w1) (ds := data ++ ds) htwo (by simp; omega) ws
    rwa [← hd, List.take_left, List.drop_left] at hread

/-- Whatever the decoder answers but `incomplete`, it read a whole command. -/
theorem exists_wholeCommand_of_readCommand {ws : List Word} {ds : List Byte} (h : readCommand ws ds ≠ .incomplete) :
    ∃ w0 tail data ws' ds', WholeCommand w0 tail data ∧ ws = w0 :: tail ++ ws' ∧ ds = data ++ ds' ∧
      readCommand ws ds = judge w0 (tail.headD 0) data ws' ds' := by
  suffices hsplit : ∃ w0 tail data ws' ds', WholeCommand w0 tail data ∧ ws = w0 :: tail ++ ws' ∧ ds = data ++ ds' by
    obtain ⟨w0, tail, data, ws', ds', hwhole, rfl, rfl⟩ := hsplit
    exact ⟨w0, tail, data, ws', ds', hwhole, rfl, rfl, readCommand_whole hwhole ws' ds'⟩
  match ws with
  | [] => simp [readCommand] at h
  | w0 :: rest =>
    rcases commandWords_cases (opcField w0) with hone | htwo
    · exact ⟨w0, [], [], rest, ds, ⟨hone.symm, (commandBytes_of_one_word hone _).symm⟩, rfl, rfl⟩
    · match rest with
      | [] => simp [readCommand, htwo] at h
      | w1 :: ws' =>
        have hd : commandBytes (opcField w0) w1 ≤ ds.length := by
          by_contra hlt
          exact h (by simp [readCommand, htwo, Nat.lt_of_not_le hlt])
        exact ⟨w0, [w1], ds.take (commandBytes (opcField w0) w1), ws', ds.drop (commandBytes (opcField w0) w1),
          ⟨htwo.symm, List.length_take_of_le hd⟩, rfl, (List.take_append_drop ..).symm⟩

end Sys2Proof

namespace Sys2Proof.Laws

theorem encodedForm (i : Instr) : EncodedForm.Statement i := by
  cases i with
  | cfg swid we => exact EncodedForm.cfg swid we
  | enc r v t len buf => exact EncodedForm.enc r v t len buf
  | stat => exact EncodedForm.stat
  | hostend => exact EncodedForm.hostend
  | swap16 x => exact EncodedForm.swap16 x
  | swap32 x => exact EncodedForm.swap32 x
  | comp16 b0 b1 s => exact EncodedForm.comp16 b0 b1 s
  | comp32 b0 b1 b2 b3 s => exact EncodedForm.comp32 b0 b1 b2 b3 s
  | rdbit b pos => exact EncodedForm.rdbit b pos

end Sys2Proof.Laws

namespace Sys2Proof

open Laws

theorem bit_of_toNat {w : Word} {n : Nat} (h : w.toNat = n) (i : Nat) (b : Bool) (hb : n / 2 ^ i % 2 = b.toNat) :
    w.getLsbD i = b := by
  rw [← Bool.ofNat_toNat (w.getLsbD i), toNat_getLsbD, h, hb, Bool.ofNat_toNat]

theorem bitEndian_decide (we : Endian) : bitEndian (decide (we = .big)) = we := by cases we <;> rfl

theorem toNat_bitEndian (b : Bool) : (if bitEndian b = .big then 1 else 0) = b.toNat := by cases b <;> rfl

/-- Word 0's fields are the operands it was made of (30_encoding.md R63 to R70), and word 1 is the second word. -/
theorem operandsOf_wordZero {i : Instr} {w0 : Word} (h : w0.toNat = wordZero i) :
    operandsOf (opcodeFor i) w0 ((encodeWords i).tail.headD 0) (encodeData i) = i := by
  cases i with
  | cfg swid we =>
    have := swid.isLt
    have hswid : w0.extractLsb' 0 8 = swid := field_of_toNat h _ _ _ (by simp only [wordZero]; split <;> omega)
    have hwe : w0.getLsbD 8 = decide (we = .big) :=
      bit_of_toNat h _ _ (by cases we <;> simp [wordZero] <;> omega)
    simp only [opcodeFor, operandsOf, hswid, hwe, bitEndian_decide]
  | enc r v t len buf =>
    have := r.toNat_le
    have := v.toNat_le
    have := t.toNat_le
    have hr : w0.getLsbD 0 = r := bit_of_toNat h _ _ (by simp only [wordZero]; omega)
    have hv : w0.getLsbD 1 = v := bit_of_toNat h _ _ (by simp only [wordZero]; omega)
    have ht : w0.getLsbD 2 = t := bit_of_toNat h _ _ (by simp only [wordZero]; omega)
    simp only [opcodeFor, operandsOf, hr, hv, ht, encodeWords, encodeData, List.tail_cons, List.headD_cons]
  | stat => rfl
  | hostend => rfl
  | swap16 x =>
    have hx : w0.extractLsb' 0 16 = x := field_of_toNat h _ _ _ (by simp only [wordZero]; omega)
    simp only [opcodeFor, operandsOf, hx]
  | swap32 x => rfl
  | comp16 b0 b1 s =>
    have := b0.isLt
    have := b1.isLt
    have := s.toNat_le
    have h0 : w0.extractLsb' 0 8 = b0 := field_of_toNat h _ _ _ (by simp only [wordZero]; omega)
    have h1 : w0.extractLsb' 8 8 = b1 := field_of_toNat h _ _ _ (by simp only [wordZero]; omega)
    have hs : w0.getLsbD 16 = s := bit_of_toNat h _ _ (by simp only [wordZero]; omega)
    simp only [opcodeFor, operandsOf, h0, h1, hs]
  | comp32 b0 b1 b2 b3 s =>
    have := s.toNat_le
    have hs : w0.getLsbD 0 = s := bit_of_toNat h _ _ (by simp only [wordZero]; omega)
    have hquad := toNat_quad b3 b2 b1 b0
    have h0 : (b3 ++ b2 ++ b1 ++ b0 : Word).extractLsb' 0 8 = b0 := field_of_toNat hquad _ _ _ (by omega)
    have h1 : (b3 ++ b2 ++ b1 ++ b0 : Word).extractLsb' 8 8 = b1 := field_of_toNat hquad _ _ _ (by omega)
    have h2 : (b3 ++ b2 ++ b1 ++ b0 : Word).extractLsb' 16 8 = b2 := field_of_toNat hquad _ _ _ (by omega)
    have h3 : (b3 ++ b2 ++ b1 ++ b0 : Word).extractLsb' 24 8 = b3 := field_of_toNat hquad _ _ _ (by omega)
    simp only [opcodeFor, operandsOf, encodeWords, List.tail_cons, List.headD_cons, h0, h1, h2, h3, hs]
  | rdbit b pos =>
    have := b.isLt
    have := pos.isLt
    have hb : w0.extractLsb' 0 8 = b := field_of_toNat h _ _ _ (by simp only [wordZero]; omega)
    have hpos : w0.extractLsb' 8 3 = pos := field_of_toNat h _ _ _ (by simp only [wordZero]; omega)
    simp only [opcodeFor, operandsOf, hb, hpos]

/-- Word 0 with clear reserved bits is made of its opcode and its fields alone (30_encoding.md R63 to R70). -/
theorem wordZero_operandsOf {op : Opcode} {w0 : Word} (hop : opcField w0 = opcodeNumber op)
    (hres : reservedClear op w0 = true) (w1 : Word) (buf : List Byte) :
    wordZero (operandsOf op w0 w1 buf) = w0.toNat := by
  have hlt := w0.isLt
  have hopc : w0.toNat / 2 ^ 24 % 2 ^ 8 = (opcodeNumber op).toNat := by rw [← hop, opcField, toNat_field]
  cases op
  all_goals
    simp only [reservedClear, beq_iff_eq, ← BitVec.toNat_inj, toNat_field, BitVec.ofNat_eq_ofNat, BitVec.toNat_ofNat]
      at hres
    simp only [opcodeNumber, BitVec.ofNat_eq_ofNat, BitVec.toNat_ofNat] at hopc
    simp only [operandsOf, wordZero, toNat_field, toNat_bitEndian, toNat_getLsbD]
    omega

theorem quad_of_bytes (w : Word) :
    (w.extractLsb' 24 8 ++ w.extractLsb' 16 8 ++ w.extractLsb' 8 8 ++ w.extractLsb' 0 8 : Word) = w := by
  have := w.isLt
  apply BitVec.eq_of_toNat_eq
  simp only [toNat_quad, toNat_field]
  omega

theorem encodeWords_tail_operandsOf {op : Opcode} {w0 : Word} {tail : List Word} (hop : opcField w0 = opcodeNumber op)
    (hlen : tail.length + 1 = commandWords (opcField w0)) (buf : List Byte) :
    (encodeWords (operandsOf op w0 (tail.headD 0) buf)).tail = tail := by
  rw [hop] at hlen
  cases op with
  | enc | swap32 =>
    obtain ⟨w1, rfl⟩ := List.length_eq_one_iff.mp (Nat.succ.inj hlen)
    rfl
  | comp32 =>
    obtain ⟨w1, rfl⟩ := List.length_eq_one_iff.mp (Nat.succ.inj hlen)
    exact congrArg (fun w => [w]) (quad_of_bytes w1)
  | _ => exact (List.eq_nil_of_length_eq_zero (Nat.succ.inj hlen)).symm

/-- The operands of a legal whole command encode to its words and data bytes: no bit of them is dropped. -/
theorem encode_operandsOf {op : Opcode} {w0 : Word} {tail : List Word} {data : List Byte}
    (hop : opcField w0 = opcodeNumber op) (hres : reservedClear op w0 = true) (hwhole : WholeCommand w0 tail data) :
    encodeWords (operandsOf op w0 (tail.headD 0) data) = w0 :: tail ∧
    encodeData (operandsOf op w0 (tail.headD 0) data) = data ∧
    wellFormed (operandsOf op w0 (tail.headD 0) data) = true := by
  obtain ⟨hlen, hdata⟩ := hwhole
  refine ⟨?words, ?bytes⟩
  case words =>
    have htail := encodeWords_tail_operandsOf hop hlen data
    obtain ⟨w, ws, henc, hw⟩ := encodeWords_wordZero (operandsOf op w0 (tail.headD 0) data)
    rw [henc, List.tail_cons] at htail
    rw [henc, htail, BitVec.eq_of_toNat_eq (hw.trans (wordZero_operandsOf hop hres _ _))]
  case bytes =>
    rw [hop] at hdata
    cases op with
    | enc => exact ⟨rfl, beq_iff_eq.mpr hdata⟩
    | _ => exact ⟨(List.eq_nil_of_length_eq_zero hdata).symm, rfl⟩

theorem wholeCommand_of_wellFormed {i : Instr} {w0 : Word} {tail : List Word} (h : wellFormed i = true)
    (henc : encodeWords i = w0 :: tail) (hop : opcField w0 = opcodeNumber (opcodeFor i))
    (hlen : tail.length + 1 = commandWords (opcField w0)) :
    WholeCommand w0 tail (encodeData i) := by
  refine ⟨hlen, ?_⟩
  rw [hop]
  cases i with
  | enc r v t len buf =>
    obtain ⟨-, rfl⟩ := List.cons.inj henc
    exact beq_iff_eq.mp h
  | _ => rfl

/-- Settles O1: an encoding is a whole command, and its operands are read back (`operandsOf_wordZero`). -/
theorem readingAnEncodedCommandGivesItBack : Obligations.ReadingAnEncodedCommandGivesItBack := by
  unfold Obligations.ReadingAnEncodedCommandGivesItBack
  intro i ws ds hwf
  obtain ⟨w0, tail, henc, hw0, hop, hres, hlen⟩ := encodedForm i
  have hi := operandsOf_wordZero hw0
  rw [henc, List.tail_cons] at hi
  rw [henc, readCommand_whole (wholeCommand_of_wellFormed hwf henc hop hlen), judge_legal hop hres, hi]

/-- Settles O2: what was read is a whole command, and its operands encode to it (`encode_operandsOf`). -/
theorem eachEncodingHasOneMeaning : Obligations.EachEncodingHasOneMeaning := by
  unfold Obligations.EachEncodingHasOneMeaning
  intro i ws ws' ds ds' h
  have hne : readCommand ws ds ≠ .incomplete := by simp [h]
  obtain ⟨w0, tail, data, ws1, ds1, hwhole, rfl, rfl, hread⟩ := exists_wholeCommand_of_readCommand hne
  obtain ⟨op, hop, hres, rfl, rfl, rfl⟩ := judge_eq_command (hread.symm.trans h)
  obtain ⟨hwords, hdata, hwf⟩ := encode_operandsOf hop hres hwhole
  rw [hwords, hdata]
  exact ⟨rfl, rfl, hwf⟩

end Sys2Proof
end

section
/-! What a reading leaves in the channels and when it is illegal (30_encoding.md R61, R72): the opcode fixes the length,
the reserved bits of word 0 decide. -/

namespace Sys2Proof

theorem commandWords_eq_one {opc : Byte} (h02 : opc ≠ 0x02) (h12 : opc ≠ 0x12) (h14 : opc ≠ 0x14) :
    commandWords opc = 1 := by
  rw [commandWords, if_neg h02, if_neg h12, if_neg h14]

/-- Reading a command of OPC 0x02, with its LEN data bytes. -/
theorem readCommand_with_data {w0 w1 : Word} {ds : List Byte} (h : opcField w0 = 0x02) (hd : w1.toNat ≤ ds.length)
    (ws : List Word) :
    readCommand (w0 :: w1 :: ws) ds = judge w0 w1 (ds.take w1.toNat) ws (ds.drop w1.toNat) := by
  have hbytes : commandBytes (opcField w0) w1 = w1.toNat := if_pos h
  simpa only [hbytes] using readCommand_two_words (by rw [h]; rfl) (hbytes.le.trans hd) ws

/-- Reading a command of OPC 0x12 or 0x14: two words and no data byte. -/
theorem readCommand_without_data {w0 : Word} (h : opcField w0 = 0x12 ∨ opcField w0 = 0x14) (w1 : Word)
    (ws : List Word) (ds : List Byte) : readCommand (w0 :: w1 :: ws) ds = judge w0 w1 [] ws ds := by
  have hbytes : commandBytes (opcField w0) w1 = 0 := by rcases h with h | h <;> rw [h] <;> rfl
  have hwords : commandWords (opcField w0) = 2 := by rcases h with h | h <;> rw [h] <;> rfl
  simpa only [hbytes, List.take_zero, List.drop_zero] using
    readCommand_two_words hwords (hbytes.le.trans ds.length.zero_le) ws

theorem opcodeOf_unassigned {n : Byte} (h : n = 0 ∨ (0x04 ≤ n.toNat ∧ n.toNat ≤ 0x0F) ∨ 0x16 ≤ n.toNat) :
    opcodeOf n = none := by
  cases hop : opcodeOf n with
  | none => rfl
  | some op =>
    obtain rfl := opcodeOf_eq_some hop
    exact absurd h (by cases op <;> decide)

theorem commandWords_of_unassigned {n : Byte} (h : opcodeOf n = none) : commandWords n = 1 :=
  commandWords_eq_one (by rintro rfl; cases h) (by rintro rfl; cases h) (by rintro rfl; cases h)

theorem readCommand_unassigned {w0 : Word} (h : opcodeOf (opcField w0) = none) (ws : List Word) (ds : List Byte) :
    readCommand (w0 :: ws) ds = .illegal .unassignedOpcode ws ds := by
  rw [readCommand_one_word (commandWords_of_unassigned h), judge_unassigned h]

theorem readCommand_reservedBits_one_word {w0 : Word} (op : Opcode) (hop : opcField w0 = opcodeNumber op)
    (hone : commandWords (opcodeNumber op) = 1) (hres : reservedClear op w0 = false) (ws : List Word) (ds : List Byte) :
    readCommand (w0 :: ws) ds = .illegal .reservedBits ws ds := by
  rw [readCommand_one_word (hop ▸ hone), judge_reservedBits hop hres]

end Sys2Proof

namespace Sys2Proof.Machine

theorem leftBehind_judge (w0 w1 : Word) (buf : List Byte) (ws : List Word) (ds : List Byte) :
    leftBehind (judge w0 w1 buf ws ds) = some (ws, ds) := by
  unfold judge
  cases decodeCommand w0 w1 buf <;> rfl

/-- Settles O4. -/
theorem opcodeAloneFixesLength : Obligations.OpcodeAloneFixesLength := by
  unfold Obligations.OpcodeAloneFixesLength
  refine fun w0 ws ds => ⟨fun h w1 hd => ?_, fun h w1 => ?_, fun h02 h12 h14 => ?_⟩
  · rw [readCommand_with_data h hd, leftBehind_judge]
  · rw [readCommand_without_data h, leftBehind_judge]
  · rw [readCommand_one_word (commandWords_eq_one h02 h12 h14), leftBehind_judge]

theorem accept_taken_append_port (s : State) : (accept s).taken ++ (accept s).port = s.taken ++ s.port := by
  cases h : s.ready <;> simp [h]

theorem step_of_illegal_running {s : State} {why : Reject} {ws : List Word} {ds : List Byte} (hr : s.rst = false)
    (hp : s.port = []) (hf : s.errInv = false) (hc : readCommand s.cmdIn s.dataIn = .illegal why ws ds) :
    step s = .next (accept (raise .illegalCommand (consumeInput ws ds s))) := by
  have hf' : (consumeInput ws ds s).errInv = false := hf
  rw [step_of_illegal hr hp hc, raiseIllegal_running hf']

/-- Settles O5: the length by the opcode, then the judgement of word 0 (`judge_unassigned`, `judge_reservedBits`,
`judge_legal`), and the step on an illegal command. -/
theorem illegalEncodings : Obligations.IllegalEncodings := by
  unfold Obligations.IllegalEncodings
  refine ⟨fun w0 ws ds => ⟨fun h => ?unassigned, fun h => ?oneWord, fun h w1 => ?twoWords, fun ⟨hop, hres⟩ w1 hd => ?enc⟩,
    fun w0 w1 ws ds => ⟨fun hop hres => ?swap32, fun hop hres => ?comp32, fun hop hres hd => ?legalEnc⟩,
    fun s why ws ds hr hp hf hc => ?step⟩
  case unassigned => exact readCommand_unassigned (opcodeOf_unassigned h) ws ds
  case oneWord =>
    obtain ⟨hop, hres⟩ | ⟨hop, hres⟩ | ⟨hop, hres⟩ | ⟨hop, hres⟩ | ⟨hop, hres⟩ | ⟨hop, hres⟩ := h
    · exact readCommand_reservedBits_one_word .cfg hop rfl (beq_false_of_ne hres) ws ds
    · exact readCommand_reservedBits_one_word .stat hop rfl (beq_false_of_ne hres) ws ds
    · exact readCommand_reservedBits_one_word .hostend hop rfl (beq_false_of_ne hres) ws ds
    · exact readCommand_reservedBits_one_word .swap16 hop rfl (beq_false_of_ne hres) ws ds
    · exact readCommand_reservedBits_one_word .comp16 hop rfl (beq_false_of_ne hres) ws ds
    · exact readCommand_reservedBits_one_word .rdbit hop rfl (beq_false_of_ne hres) ws ds
  case twoWords =>
    obtain ⟨hop, hres⟩ | ⟨hop, hres⟩ := h
    · rw [readCommand_without_data (.inl hop)]
      exact judge_reservedBits (op := .swap32) hop (beq_false_of_ne hres) w1 [] ws ds
    · rw [readCommand_without_data (.inr hop)]
      exact judge_reservedBits (op := .comp32) hop (beq_false_of_ne hres) w1 [] ws ds
  case enc =>
    rw [readCommand_with_data hop hd]
    exact judge_reservedBits (op := .enc) hop (beq_false_of_ne hres) w1 _ ws _
  case swap32 =>
    rw [readCommand_without_data (.inl hop)]
    exact judge_legal (op := .swap32) hop (beq_iff_eq.mpr hres) w1 [] ws ds
  case comp32 =>
    rw [readCommand_without_data (.inr hop)]
    exact judge_legal (op := .comp32) hop (beq_iff_eq.mpr hres) w1 [] ws ds
  case legalEnc =>
    rw [readCommand_with_data hop hd]
    exact judge_legal (op := .enc) hop (beq_iff_eq.mpr hres) w1 _ ws _
  case step =>
    refine ⟨_, step_of_illegal_running hr hp hf hc, by simp, by simp, by simp, ?_⟩
    rw [accept_taken_append_port]
    simp [hp, causeStatus]

/-- Settles O3, by running the decoder. -/
theorem wordsOfTheSpecDecode : Obligations.WordsOfTheSpecDecode := by
  unfold Obligations.WordsOfTheSpecDecode
  decide

end Sys2Proof.Machine
end

section
/-! The boundaries of the frames in an emitted stream (30_encoding.md R81, R82): a frame's length follows from its own
bytes, whatever stands behind it, so a receiver cuts a train by the bytes as well as by the end-of-frame marks. -/

namespace Sys2Proof.Machine

/-- A frame within R82 has the header and one byte more, and byte 3 and byte 4 give its length. -/
theorem frameOk_cases {f : Frame} (h : frameOk f = true) :
    ∃ a b c x rest,
      (f = a :: b :: c :: 1 :: x :: rest ∧ f.length = 8) ∨
      (f = a :: b :: c :: 2 :: x :: rest ∧ x.toNat ≤ 59 ∧ f.length = 5 + x.toNat) ∨
      (f = a :: b :: c :: 3 :: x :: rest ∧ f.length = 5) := by
  match f with
  | [] | [_] | [_, _] | [_, _, _] | [_, _, _, _] => simp [frameOk, frameKind] at h
  | a :: b :: c :: k :: x :: rest =>
    refine ⟨a, b, c, x, rest, ?_⟩
    simp only [frameOk, frameKind, List.getElem?_cons_succ, List.getElem?_cons_zero] at h
    split_ifs at h with h1 h2 h3
    · exact .inl ⟨by rw [h1], beq_iff_eq.mp h⟩
    · simp only [Bool.and_eq_true, decide_eq_true_eq, beq_iff_eq] at h
      obtain ⟨⟨-, hmax⟩, hlen⟩ := h
      exact .inr (.inl ⟨by rw [h2], hmax, hlen⟩)
    · simp only [Bool.and_eq_true, beq_iff_eq] at h
      obtain ⟨-, hlen⟩ := h
      exact .inr (.inr ⟨by rw [h3], hlen⟩)

theorem frameOk_ne_nil {f : Frame} (h : frameOk f = true) : f ≠ [] := by
  rintro rfl
  cases h

theorem frameOk_length_le {f : Frame} (h : frameOk f = true) : f.length ≤ 64 := by
  obtain ⟨a, b, c, x, rest, ⟨-, hlen⟩ | ⟨-, hmax, hlen⟩ | ⟨-, hlen⟩⟩ := frameOk_cases h
  · omega
  · omega
  · omega

/-- The length of a Start, a Data and a Stop frame from its first five bytes (R81). -/
theorem frameLength_kinds (a b c x : Byte) (rest : List Byte) :
    frameLength (a :: b :: c :: 1 :: x :: rest) = some 8 ∧
    frameLength (a :: b :: c :: 2 :: x :: rest) = some (5 + x.toNat) ∧
    frameLength (a :: b :: c :: 3 :: x :: rest) = some 5 :=
  ⟨rfl, rfl, rfl⟩

theorem frameLength_append {f : Frame} (h : frameOk f = true) (more : List Byte) :
    frameLength (f ++ more) = some f.length := by
  obtain ⟨a, b, c, x, rest, ⟨hf, hlen⟩ | ⟨hf, -, hlen⟩ | ⟨hf, hlen⟩⟩ := frameOk_cases h
  all_goals
    obtain ⟨hstart, hdata, hstop⟩ := frameLength_kinds a b c x (rest ++ more)
    rw [hlen, hf]
    assumption

/-- One turn of the receiver cuts off exactly the first frame. -/
theorem splitFrames_append {f : Frame} (h : frameOk f = true) (fuel : Nat) (more : List Byte) :
    splitFrames (fuel + 1) (f ++ more) = (splitFrames fuel more).map (f :: ·) := by
  obtain ⟨b, bs, hcons⟩ : ∃ b bs, f ++ more = b :: bs := List.exists_cons_of_ne_nil (by simp [frameOk_ne_nil h])
  have hcut := frameLength_append h more
  rw [hcons] at hcut ⊢
  simp only [splitFrames, hcut]
  rw [← hcons, List.drop_left, List.take_left]

theorem splitFrames_flatten {frames : List Frame} (h : ∀ f ∈ frames, frameOk f = true) :
    splitFrames frames.length frames.flatten = some frames := by
  induction frames with
  | nil => rfl
  | cons f frames ih =>
    obtain ⟨hf, hrest⟩ := List.forall_mem_cons.mp h
    rw [List.length_cons, List.flatten_cons, splitFrames_append hf, ih hrest, Option.map_some]

theorem splitMarked_append {f : Frame} (h : f ≠ []) (rest : List (Byte × Bool)) :
    splitMarked (markFrame f ++ rest) = f :: splitMarked rest := by
  induction f using markFrame.induct with
  | case1 => exact absurd rfl h
  | case2 b => rfl
  | case3 b c bs ih =>
    have hcut := ih (List.cons_ne_nil c bs)
    simp only [markFrame, List.cons_append, splitMarked, hcut]

theorem splitMarked_flatten {frames : List Frame} (h : ∀ f ∈ frames, f ≠ []) :
    splitMarked (frames.map markFrame).flatten = frames := by
  induction frames with
  | nil => rfl
  | cons f frames ih =>
    obtain ⟨hf, hrest⟩ := List.forall_mem_cons.mp h
    rw [List.map_cons, List.flatten_cons, splitMarked_append hf, ih hrest]

theorem frameOk_specStart (swid : Byte) (swap : Bool) (id : Half) (len : Word) :
    frameOk (specStart swid swap id len) = true := by
  cases swap <;> rfl

theorem frameOk_specStop (swid : Byte) (swap : Bool) (id : Half) (r v t : Bool) :
    frameOk (specHeader swid swap id 3 ++ [specFlags r v t]) = true := by
  have hflags : (specFlags r v t).toNat < 8 := by cases r <;> cases v <;> cases t <;> decide
  cases swap <;> simpa [specHeader, frameOk, frameKind] using hflags

theorem specChunk_length {buf : List Byte} {j : Nat} (h : j < specChunks buf.length) :
    1 ≤ (specChunk buf j).length ∧ (specChunk buf j).length ≤ 59 := by
  simp only [specChunks, ceilDiv] at h
  simp only [specChunk, List.length_take, List.length_drop]
  omega

theorem frameOk_specData (swid : Byte) (swap : Bool) (id : Half) {buf : List Byte} {j : Nat}
    (h : j < specChunks buf.length) : frameOk (specData swid swap id buf j) = true := by
  obtain ⟨hmin, hmax⟩ := specChunk_length h
  have hbyte : (BitVec.ofNat 8 (specChunk buf j).length).toNat = (specChunk buf j).length :=
    Nat.mod_eq_of_lt (by omega)
  cases swap <;> simp [specData, specHeader, frameOk, frameKind, hbyte, hmin, hmax] <;> omega

/-- Every frame of a train in closed form is within R82. -/
theorem frameOk_specTrain (s : State) (r v t : Bool) (len : Word) (buf : List Byte) :
    ∀ f ∈ specTrain s r v t len buf, frameOk f = true := by
  intro f hf
  simp only [specTrain, List.cons_append, List.mem_cons, List.mem_append, List.mem_map, List.mem_range,
    List.not_mem_nil, or_false] at hf
  obtain rfl | ⟨j, hj, rfl⟩ | rfl := hf
  · exact frameOk_specStart ..
  · exact frameOk_specData _ _ _ hj
  · exact frameOk_specStop ..

/-- Settles O43: `frameLength_append` for the cut by bytes, `splitMarked_append` for the cut by marks, and the train of
an ENC in closed form. -/
theorem frameBoundariesAreFound : Obligations.FrameBoundariesAreFound := by
  unfold Obligations.FrameBoundariesAreFound
  refine ⟨frameLength_kinds, fun _ => splitFrames_flatten, fun _ => splitMarked_flatten, fun f hf => ?length,
    fun r v t len buf s hlen hf hc => ?train⟩
  case length =>
    exact ⟨frameOk_ne_nil hf, by simpa using frameLength_append hf [], frameOk_length_le hf⟩
  case train =>
    have hok := frameOk_specTrain s r v t len buf
    exact ⟨_, _, _, exec_enc_complete r v t hlen hf hc, deliverTrain_port .., hok, splitFrames_flatten hok,
      splitMarked_flatten fun f hmem => frameOk_ne_nil (hok f hmem)⟩

end Sys2Proof.Machine
end

section
/-! The byte-order functions (40_byte_order.md R100 to R103, R107 to R110) as facts about bytes side by side: a swap
reverses them, so it undoes itself, and composing a field's components gives the field back. -/

namespace Sys2Proof.Machine

/-- The bytes of `{a, b}`. -/
theorem byteOf_pair (a b : Byte) : byteOf 0 (a ++ b : Half) = b ∧ byteOf 1 (a ++ b : Half) = a := by
  have := a.isLt
  have := b.isLt
  constructor
  all_goals
    apply BitVec.eq_of_toNat_eq
    rw [byteOf, toNat_field, toNat_pair]
    omega

/-- The bytes of `{a, b, c, d}`. -/
theorem byteOf_quad (a b c d : Byte) :
    byteOf 0 (a ++ b ++ c ++ d : Word) = d ∧ byteOf 1 (a ++ b ++ c ++ d : Word) = c ∧
    byteOf 2 (a ++ b ++ c ++ d : Word) = b ∧ byteOf 3 (a ++ b ++ c ++ d : Word) = a := by
  have := a.isLt
  have := b.isLt
  have := c.isLt
  have := d.isLt
  refine ⟨?_, ?_, ?_, ?_⟩
  all_goals
    apply BitVec.eq_of_toNat_eq
    rw [byteOf, toNat_field, toNat_quad]
    omega

theorem swap16_pair (a b : Byte) : swap16 (a ++ b) = b ++ a := by
  obtain ⟨h0, h1⟩ := byteOf_pair a b
  rw [swap16, h0, h1]

theorem swap32_quad (a b c d : Byte) : swap32 (a ++ b ++ c ++ d) = d ++ c ++ b ++ a := by
  obtain ⟨h0, h1, h2, h3⟩ := byteOf_quad a b c d
  rw [swap32, h0, h1, h2, h3]

theorem swap16_swap16 (x : Half) : swap16 (swap16 x) = x :=
  (swap16_pair (byteOf 0 x) (byteOf 1 x)).trans (byteOf_one_append_byteOf_zero x)

theorem swap32_swap32 (x : Word) : swap32 (swap32 x) = x :=
  (swap32_quad (byteOf 0 x) (byteOf 1 x) (byteOf 2 x) (byteOf 3 x)).trans (quad_of_bytes x)

/-- Settles O15. -/
theorem swapsAreInvolutive : Obligations.SwapsAreInvolutive := by
  unfold Obligations.SwapsAreInvolutive
  exact ⟨swap16_swap16, swap32_swap32⟩

/-- R102 for 16 bits: high byte first is the swapped value low byte first. -/
theorem e16_true_eq_swap16 (x : Half) : e16 x true = e16 (swap16 x) false := by
  obtain ⟨h0, h1⟩ := byteOf_pair (byteOf 0 x) (byteOf 1 x)
  simp [e16, swap16, h0, h1]

/-- R102 for 32 bits. -/
theorem e32_true_eq_swap32 (x : Word) : e32 x true = e32 (swap32 x) false := by
  obtain ⟨h0, h1, h2, h3⟩ := byteOf_quad (byteOf 0 x) (byteOf 1 x) (byteOf 2 x) (byteOf 3 x)
  simp [e32, swap32, h0, h1, h2, h3]

/-- Settles O13: low byte first by definition, high byte first by `e16_true_eq_swap16` and `e32_true_eq_swap32`. -/
theorem encodersAreSwapsLowByteFirst : Obligations.EncodersAreSwapsLowByteFirst := by
  unfold Obligations.EncodersAreSwapsLowByteFirst
  exact ⟨fun x => ⟨rfl, e16_true_eq_swap16 x⟩, fun x => ⟨rfl, e32_true_eq_swap32 x⟩⟩

theorem compose16_eq (b0 b1 : Byte) (sw : Bool) :
    compose16 b0 b1 sw = match sw with | false => b1 ++ b0 | true => b0 ++ b1 := by
  cases sw with
  | false => rfl
  | true => exact swap16_pair b1 b0

theorem compose32_eq (b0 b1 b2 b3 : Byte) (sw : Bool) :
    compose32 b0 b1 b2 b3 sw = match sw with | false => b3 ++ b2 ++ b1 ++ b0 | true => b0 ++ b1 ++ b2 ++ b3 := by
  cases sw with
  | false => rfl
  | true => exact swap32_quad b3 b2 b1 b0

/-- Settles O14: the components low byte first make up the value, and those high byte first its swap. -/
theorem composeUndoesTheEncoders : Obligations.ComposeUndoesTheEncoders := by
  unfold Obligations.ComposeUndoesTheEncoders
  refine ⟨fun x s => ?half, fun x s => ?word⟩
  case half =>
    cases s with
    | false => exact ⟨_, _, rfl, byteOf_one_append_byteOf_zero x⟩
    | true => exact ⟨_, _, rfl, swap16_swap16 x⟩
  case word =>
    cases s with
    | false => exact ⟨_, _, _, _, rfl, quad_of_bytes x⟩
    | true => exact ⟨_, _, _, _, rfl, swap32_swap32 x⟩

end Sys2Proof.Machine
end

section
/-! The frame headers of a train in closed form (30_encoding.md R75, 41_generator_config.md R126): frame `j` carries the
id SEQ + j through E16, and the Start frame the length through E32. -/

namespace Sys2Proof.Machine

theorem frameId_specHeader (swid : Byte) (swap : Bool) (id : Half) (kind : Byte) (rest : List Byte) :
    frameId (specHeader swid swap id kind ++ rest) = e16 id swap := by
  cases swap <;> rfl

theorem specStart_bytes (swid : Byte) (swap : Bool) (id : Half) (len : Word) :
    specStart swid swap id len = [swid] ++ e16 id swap ++ [1] ++ e32 len swap :=
  (startFrame_spec swid swap id len).symm

theorem map_frameId_specTrain (s : State) (r v t : Bool) (len : Word) (buf : List Byte) :
    (specTrain s r v t len buf).map frameId =
      (List.range (2 + specChunks buf.length)).map fun j => e16 (s.seq + BitVec.ofNat 16 j) s.swap := by
  have hrange : List.range (2 + specChunks buf.length) =
      0 :: (List.range (specChunks buf.length)).map (1 + ·) ++ [1 + specChunks buf.length] := by
    rw [Nat.add_comm, List.range_succ_eq_map, List.range_succ]
    simp [Nat.add_comm]
  simp only [hrange, specTrain, specData, List.map_append, List.map_cons, List.map_map, List.map_nil,
    frameId_specStart, frameId_specHeader, Function.comp_def, BitVec.ofNat_eq_ofNat, BitVec.add_zero]

theorem frameId_of_specTrain_getElem? {s : State} {r v t : Bool} {len : Word} {buf : List Byte} {j : Nat} {f : Frame}
    (h : (specTrain s r v t len buf)[j]? = some f) : frameId f = e16 (s.seq + BitVec.ofNat 16 j) s.swap := by
  have hid := congrArg (·[j]?) (map_frameId_specTrain s r v t len buf)
  obtain ⟨hj, -⟩ := List.getElem?_eq_some_iff.mp h
  rw [specTrain_length] at hj
  simpa [h, hj] using hid

/-- Settles O12: the encoders by definition, their use by the train of an ENC in closed form. -/
theorem fieldEncoders : Obligations.FieldEncoders := by
  unfold Obligations.FieldEncoders
  refine ⟨fun _ => ⟨rfl, rfl⟩, fun _ => ⟨rfl, rfl⟩, rfl, rfl, fun r v t len buf s hlen hf hc => ?train⟩
  case train =>
    exact ⟨_, _, _, exec_enc_complete r v t hlen hf hc, deliverTrain_port ..,
      fun j f => frameId_of_specTrain_getElem?, congrArg some (specStart_bytes ..)⟩

end Sys2Proof.Machine
end

section
/-! The six byte-order commands (40_byte_order.md section 2): each answers one value and writes nothing, a FAULTED block
refuses it, and a reserved bit set makes it illegal. -/

namespace Sys2Proof

theorem readCommand_reservedBits_two_words {w0 : Word} (op : Opcode) (hop : opcField w0 = opcodeNumber op)
    (htwo : opcField w0 = 0x12 ∨ opcField w0 = 0x14) (hres : reservedClear op w0 = false) (w1 : Word) (ws : List Word)
    (ds : List Byte) : readCommand (w0 :: w1 :: ws) ds = .illegal .reservedBits ws ds := by
  rw [readCommand_without_data htwo, judge_reservedBits hop hres]

end Sys2Proof

namespace Sys2Proof.Machine

/-- A command that answers `v` answers it, and nothing else, in a block that is not FAULTED. -/
theorem exec_answer_running {i : Instr} {s : State} {v w : Word}
    (h : exec i s = .next (unlessFaulted s (respondOk v s))) (hv : v = w) (hf : s.errInv = false) :
    exec i s = .next { s with port := s.port ++ [.response ⟨.ok, w⟩] } := by
  rw [h, unlessFaulted_running _ hf, hv]
  rfl

/-- A command that a FAULTED block does not run is refused there, and nothing else changes (60_exceptions.md R174). -/
theorem exec_answer_faulted {i : Instr} {s t : State} (h : exec i s = .next (unlessFaulted s t))
    (hf : s.errInv = true) : exec i s = .next { s with port := s.port ++ [.response ⟨.faulted, 0⟩] } := by
  rw [h, unlessFaulted_faulted _ hf]
  rfl

theorem endianResult_eq (e : Endian) : endianResult e = match e with | .little => 0 | .big => 1 := by
  cases e <;> rfl

theorem halfResult_eq (x : Half) : halfResult x = 0#16 ++ x := BitVec.setWidth_eq_append (by decide)

theorem bitResult_readBit (b : Byte) (pos : BitVec 3) :
    bitResult (readBit b pos) = BitVec.ofNat 32 (b.toNat / 2 ^ pos.toNat % 2) := by
  rw [← toNat_getLsbD, ← readBit]
  cases readBit b pos <;> rfl

theorem readBit_packFlags (r v t : Bool) :
    readBit (packFlags r v t) 0 = r ∧ readBit (packFlags r v t) 1 = v ∧ readBit (packFlags r v t) 2 = t := by
  revert r v t
  decide

/-- With S = 0, COMP32 gives back its word 1 (R108). -/
theorem readCommand_comp32_low_first (w1 : Word) : ∃ b0 b1 b2 b3,
    readCommand [0x14000000, w1] [] = .command (.comp32 b0 b1 b2 b3 false) [] [] ∧
      compose32 b0 b1 b2 b3 false = w1 :=
  ⟨_, _, _, _, readCommand_without_data (.inr rfl) w1 [] [], quad_of_bytes w1⟩

/-- Settles O16. -/
theorem hostendCommand : Obligations.HostendCommand := by
  unfold Obligations.HostendCommand
  exact ⟨fun _ => exec_answer_running rfl (endianResult_eq _), fun _ => exec_answer_faulted rfl, rfl,
    fun w0 ws ds hop hres => readCommand_reservedBits_one_word .hostend hop rfl (beq_false_of_ne hres) ws ds⟩

/-- Settles O17. -/
theorem swap16Command : Obligations.Swap16Command := by
  unfold Obligations.Swap16Command
  exact ⟨fun _ _ => exec_answer_running rfl (halfResult_eq _), fun _ _ => exec_answer_faulted rfl,
    fun x => ⟨_, rfl, wordZero_swap16 x⟩,
    fun w0 ws ds hop hres => readCommand_reservedBits_one_word .swap16 hop rfl (beq_false_of_ne hres) ws ds,
    swap16_swap16, fun b => swap16_pair b b, by decide⟩

/-- Settles O18. -/
theorem swap32Command : Obligations.Swap32Command := by
  unfold Obligations.Swap32Command
  exact ⟨fun _ _ => exec_answer_running rfl rfl, fun _ _ => exec_answer_faulted rfl, fun _ => rfl,
    fun w0 w1 ws ds hop hres =>
      readCommand_reservedBits_two_words .swap32 hop (.inl hop) (beq_false_of_ne hres) w1 ws ds,
    swap32_swap32, by decide⟩

/-- Settles O19. -/
theorem comp16Command : Obligations.Comp16Command := by
  unfold Obligations.Comp16Command
  refine ⟨fun b0 b1 sw s => ?answer, fun _ _ _ _ => exec_answer_faulted rfl,
    fun b0 b1 sw => ⟨_, rfl, wordZero_comp16 b0 b1 sw⟩,
    fun w0 ws ds hop hres => readCommand_reservedBits_one_word .comp16 hop rfl (beq_false_of_ne hres) ws ds,
    fun b sw => ?equalBytes, by decide⟩
  case answer => exact exec_answer_running rfl ((halfResult_eq _).trans (congrArg (0#16 ++ ·) (compose16_eq b0 b1 sw)))
  case equalBytes => cases sw <;> exact compose16_eq ..

/-- Settles O20. -/
theorem comp32Command : Obligations.Comp32Command := by
  unfold Obligations.Comp32Command
  exact ⟨fun _ _ _ _ _ _ => exec_answer_running rfl (compose32_eq ..), fun _ _ _ _ _ _ => exec_answer_faulted rfl,
    fun b0 b1 b2 b3 sw => ⟨_, _, rfl, wordZero_comp32 b0 b1 b2 b3 sw, by rw [toNat_quad]; omega⟩,
    fun w0 w1 ws ds hop hres =>
      readCommand_reservedBits_two_words .comp32 hop (.inr hop) (beq_false_of_ne hres) w1 ws ds,
    readCommand_comp32_low_first, by decide⟩

/-- Settles O21. -/
theorem rdbitCommand : Obligations.RdbitCommand := by
  unfold Obligations.RdbitCommand
  exact ⟨fun b pos _ => exec_answer_running rfl (bitResult_readBit b pos), fun _ _ _ => exec_answer_faulted rfl,
    fun b pos => ⟨_, rfl, wordZero_rdbit b pos⟩,
    fun w0 ws ds hop hres => readCommand_reservedBits_one_word .rdbit hop rfl (beq_false_of_ne hres) ws ds,
    by decide, by decide, readBit_packFlags⟩

end Sys2Proof.Machine
end

section
/-! What holds of a conforming block at all times (10_state.md R24 to R28, 30_encoding.md R82,
41_generator_config.md R121, 60_exceptions.md R173, R176): a step runs only commands that have all their data bytes, and such
a command keeps it. -/

namespace Sys2Proof.Machine

theorem frameKind_specHeader (swid : Byte) (swap : Bool) (id : Half) (kind : Byte) (rest : List Byte) :
    frameKind (specHeader swid swap id kind ++ rest) = some kind := by
  cases swap <;> rfl

/-- The packet types of a train in closed form: Start, one Data for each chunk, Stop (42_encode.md R146). -/
theorem map_frameKind_specTrain (s : State) (r v t : Bool) (len : Word) (buf : List Byte) :
    (specTrain s r v t len buf).map frameKind =
      some 1 :: List.replicate (specChunks buf.length) (some 2) ++ [some 3] := by
  simp [specTrain, specStart, specData, frameKind_specHeader, Function.comp_def]

theorem trainOk_specTrain (s : State) (r v t : Bool) (len : Word) (buf : List Byte) :
    trainOk (specTrain s r v t len buf) = true := by
  have hframes : (specTrain s r v t len buf).all frameOk = true :=
    List.all_eq_true.mpr (frameOk_specTrain s r v t len buf)
  have hkinds := map_frameKind_specTrain s r v t len buf
  rw [trainOk, hframes, hkinds, specTrain_length, Nat.add_sub_cancel_left]
  exact beq_self_eq_true _

/-- What an instruction with all its data bytes does in a block that is not FAULTED: it answers OK, starts a session,
raises NotConfigured, or delivers the train in closed form. It raises no InvariantFault (60_exceptions.md R173). -/
theorem exec_wellFormed_cases {i : Instr} {s t : State} (hwf : wellFormed i = true) (hf : s.errInv = false)
    (h : exec i s = .next t) :
    (∃ v, t = respondOk v s) ∨ (∃ swid we, t = respondOk 0 (configure swid we s)) ∨ t = raise .notConfigured s ∨
    (s.cfgd = true ∧ ∃ r v test len buf c, t = deliverTrain (specTrain s r v test len buf) c s) := by
  obtain ⟨hf', -⟩ | ⟨-, -, v, hv⟩ | ⟨-, swid, we, -, hu⟩ | ⟨-, r, v, test, len, buf, rfl, hu⟩ := exec_cases i s
  · simp [hf] at hf'
  · exact .inl ⟨v, Host.Outcome.next.inj (h.symm.trans hv)⟩
  · exact .inr (.inl ⟨swid, we, Host.Outcome.next.inj (h.symm.trans hu)⟩)
  · have ht : t = encodeBuffer r v test len buf s := Host.Outcome.next.inj (h.symm.trans hu)
    cases hc : s.cfgd with
    | false => exact .inr (.inr (.inl (by simp [ht, encodeBuffer, hc])))
    | true =>
      rw [encodeBuffer_complete r v test (beq_iff_eq.mp hwf) hc] at ht
      exact .inr (.inr (.inr ⟨rfl, r, v, test, len, buf, _, ht⟩))

/-- Conforming output behind conforming output. -/
theorem outputOk_of_append {s t : State} {out : List Output} (ht : t.taken ++ t.port = s.taken ++ s.port ++ out)
    (hs : ∀ o ∈ s.taken ++ s.port, outputOk o = true) (hout : ∀ o ∈ out, outputOk o = true) :
    ∀ o ∈ t.taken ++ t.port, outputOk o = true := by
  rw [ht]
  exact List.forall_mem_append.mpr ⟨hs, hout⟩

theorem conforming_accept {s : State} (h : Conforming s) : Conforming (accept s) := by
  obtain ⟨hswap, hreset, hrun, hout⟩ := h
  exact ⟨by simpa [SwapLatched] using hswap, by simpa [UnconfiguredAtReset] using hreset, by simpa using hrun,
    outputOk_of_append (out := []) (by rw [accept_taken_append_port, List.append_nil]) hout (by simp)⟩

theorem conforming_takeReset {s : State} (h : Conforming s) : Conforming (takeReset s) := by
  obtain ⟨-, -, -, hout⟩ := h
  exact ⟨rfl, fun _ => ⟨rfl, rfl, rfl⟩, rfl, outputOk_of_append (out := []) (by simp) hout (by simp)⟩

theorem conforming_respondOk {s : State} (h : Conforming s) (v : Word) : Conforming (respondOk v s) := by
  obtain ⟨hswap, hreset, hrun, hout⟩ := h
  exact ⟨hswap, hreset, hrun,
    outputOk_of_append (by rw [respondOk_port, respondOk_taken, List.append_assoc]) hout (by simp [outputOk])⟩

theorem conforming_configure {s : State} (h : Conforming s) (swid : Byte) (we : Endian) :
    Conforming (configure swid we s) := by
  obtain ⟨-, -, hrun, hout⟩ := h
  exact ⟨rfl, by simp [UnconfiguredAtReset], hrun, hout⟩

/-- The two errors that do not make a block FAULTED. -/
theorem conforming_raise {s : State} (h : Conforming s) {e : ErrorCause} (he : e ≠ .invariantFault) :
    Conforming (raise e s) := by
  obtain ⟨hswap, hreset, hrun, hout⟩ := h
  exact ⟨by simpa [SwapLatched] using hswap, by simpa [UnconfiguredAtReset] using hreset, by simpa [hrun] using he,
    outputOk_of_append (by rw [raise_port, raise_taken, List.append_assoc]) hout (by simp [outputOk])⟩

theorem conforming_deliverTrain {s : State} (h : Conforming s) (hc : s.cfgd = true) {train : List Frame}
    (htrain : trainOk train = true) (c : Half) : Conforming (deliverTrain train c s) := by
  obtain ⟨hswap, -, hrun, hout⟩ := h
  exact ⟨by simpa [SwapLatched] using hswap, by simp [UnconfiguredAtReset, hc], by simpa using hrun,
    outputOk_of_append (by rw [deliverTrain_port, deliverTrain_taken, List.append_assoc]) hout
      (by simp [outputOk, htrain])⟩

theorem conforming_raiseIllegal {s : State} (h : Conforming s) : Conforming (raiseIllegal s) := by
  have ⟨_, _, hrun, _⟩ := h
  rw [raiseIllegal_running hrun]
  exact conforming_raise h (by decide)

theorem conforming_exec {i : Instr} {s t : State} (hs : Conforming s) (hwf : wellFormed i = true)
    (h : exec i s = .next t) : Conforming t := by
  have ⟨_, _, hrun, _⟩ := hs
  obtain ⟨v, rfl⟩ | ⟨swid, we, rfl⟩ | rfl | ⟨hc, r, v, test, len, buf, c, rfl⟩ := exec_wellFormed_cases hwf hrun h
  · exact conforming_respondOk hs v
  · exact conforming_respondOk (conforming_configure hs swid we) 0
  · exact conforming_raise hs (by decide)
  · exact conforming_deliverTrain hs hc (trainOk_specTrain ..) c

/-- A command that is read has all its data bytes. -/
theorem wellFormed_of_readCommand {i : Instr} {ws ws' : List Word} {ds ds' : List Byte}
    (h : readCommand ws ds = .command i ws' ds') : wellFormed i = true := by
  obtain ⟨-, -, hwf⟩ := eachEncodingHasOneMeaning i ws ws' ds ds' h
  exact hwf

/-- Settles O55: the shared operations keep the invariant, and the command a step runs has all its data bytes. -/
theorem everyStepKeepsConformance : Obligations.EveryStepKeepsConformance := by
  unfold Obligations.EveryStepKeepsConformance
  intro s t hs h
  have hconsume (ws : List Word) (ds : List Byte) : Conforming (consumeInput ws ds s) := hs
  cases hr : s.rst with
  | true => exact eq_takeReset_of_step hr h ▸ conforming_takeReset hs
  | false =>
    obtain ⟨-, rfl⟩ | ⟨-, -, rfl⟩ | ⟨-, why, ws, ds, -, rfl⟩ | ⟨-, i, ws, ds, u, hc, he, rfl⟩ := step_next_cases hr h
    · exact conforming_accept hs
    · exact hs
    · exact conforming_accept (conforming_raiseIllegal (hconsume ws ds))
    · exact conforming_accept (conforming_exec (hconsume ws ds) (wellFormed_of_readCommand hc) he)

end Sys2Proof.Machine
end

section
/-! The configuration and status commands (41_generator_config.md R120, R121, R124). -/

namespace Sys2Proof.Machine

/-- Settles O25: SWAP is written with WE, by CFG and by reset, and `exec_sameConfiguration` for every other command. -/
theorem swapDecisionRule : Obligations.SwapDecisionRule := by
  unfold Obligations.SwapDecisionRule
  refine ⟨by decide, fun swid we s hf => ?cfg, fun s hr => ?reset, fun i s t hi h => ?others, fun x y => ?wire⟩
  case cfg => exact ⟨_, exec_cfg_running swid we hf, rfl, rfl⟩
  case reset => exact ⟨_, step_of_reset hr, rfl, rfl⟩
  case others =>
    obtain ⟨-, hwe, hswap, -⟩ := exec_sameConfiguration hi h
    exact ⟨hwe, hswap⟩
  case wire => exact ⟨rfl, rfl, rfl, rfl⟩

/-- Settles O22. -/
theorem cfgCommand : Obligations.CfgCommand := by
  unfold Obligations.CfgCommand
  refine ⟨fun swid we _ => exec_cfg_running swid we, fun _ _ _ => exec_answer_faulted rfl, fun swid we => ?encoding,
    fun w0 ws ds hop hres => readCommand_reservedBits_one_word .cfg hop rfl (beq_false_of_ne hres) ws ds, by decide⟩
  case encoding => exact ⟨_, rfl, (wordZero_cfg swid we).trans (by cases we <;> rfl)⟩

/-- Settles O23: STAT's one response reads the registers and writes none. -/
theorem statCommand : Obligations.StatCommand := by
  unfold Obligations.StatCommand
  refine ⟨fun _ => rfl, rfl,
    fun w0 ws ds hop hres => readCommand_reservedBits_one_word .stat hop rfl (beq_false_of_ne hres) ws ds,
    fun s t h => ?readsOnly, fun s hseq hswid hwe hswap hhost hcfgd hill hncfg hinv => ?row⟩
  case readsOnly =>
    obtain rfl : respondOk (statusWord s) s = t := Host.Outcome.next.inj h
    rfl
  case row =>
    rw [statusWord, hseq, hswid, hwe, hswap, hhost, hcfgd, hill, hncfg, hinv]
    rfl

end Sys2Proof.Machine
end

section
/-! Sequence ids (41_generator_config.md R122, R123, R126): the frames of any output carry consecutive ids from the SEQ
that the output finds, and leave SEQ past them. The fact holds of an ENC's loop turn by turn, so of every ENC that
delivers a train, and it composes along outputs. -/

namespace Sys2Proof.Machine

/-- The id fields of `n` frames that consume consecutive ids from `c` on. -/
def idsFrom (c : Half) (swap : Bool) (n : Nat) : List (List Byte) :=
  (List.range n).map fun j => e16 (c + BitVec.ofNat 16 j) swap

theorem idsFrom_add (c : Half) (swap : Bool) (m n : Nat) :
    idsFrom c swap (m + n) = idsFrom c swap m ++ idsFrom (c + BitVec.ofNat 16 m) swap n := by
  simp [idsFrom, List.range_add, Function.comp_def, BitVec.ofNat_add, BitVec.add_assoc]

theorem idsFrom_one (c : Half) (swap : Bool) : idsFrom c swap 1 = [e16 c swap] := by
  simp [idsFrom]

theorem idsFrom_succ (c : Half) (swap : Bool) (n : Nat) :
    idsFrom c swap (n + 1) = e16 c swap :: idsFrom (c + 1) swap n := by
  rw [Nat.add_comm, idsFrom_add, idsFrom_one]
  rfl

/-- Frames that carry consecutive ids from `c` on, with `c'` the counter after them. -/
structure NumberedFrames (swap : Bool) (c c' : Half) (frames : List Frame) : Prop where
  counter : c' = c + BitVec.ofNat 16 frames.length
  ids : frames.map frameId = idsFrom c swap frames.length

theorem numberedFrames_nil (swap : Bool) (c : Half) : NumberedFrames swap c c [] :=
  ⟨(BitVec.add_zero c).symm, rfl⟩

theorem numberedFrames_append {swap : Bool} {c c' c'' : Half} {as bs : List Frame} (ha : NumberedFrames swap c c' as)
    (hb : NumberedFrames swap c' c'' bs) : NumberedFrames swap c c'' (as ++ bs) where
  counter := by rw [hb.counter, ha.counter, List.length_append, BitVec.ofNat_add, BitVec.add_assoc]
  ids := by rw [List.map_append, ha.ids, hb.ids, ha.counter, List.length_append, idsFrom_add]

/-- One frame consumes one id (R122). -/
theorem numberedFrames_singleton {swap : Bool} {c : Half} {f : Frame} (h : frameId f = e16 c swap) :
    NumberedFrames swap c (consume c).2 [f] where
  counter := rfl
  ids := by rw [List.length_singleton, idsFrom_one, ← h]; rfl

theorem numberedFrames_getElem? {swap : Bool} {c c' : Half} {frames : List Frame}
    (h : NumberedFrames swap c c' frames) {k : Nat} {f : Frame} (hf : frames[k]? = some f) :
    frameId f = e16 (c + BitVec.ofNat 16 k) swap := by
  have hid := congrArg (·[k]?) h.ids
  obtain ⟨hk, rfl⟩ := List.getElem?_eq_some_iff.mp hf
  simpa [idsFrom, hk] using hid

theorem frameId_header (swid : Byte) (swap : Bool) (id : Half) (kind : Byte) (rest : List Byte) :
    frameId (header swid swap id kind ++ rest) = e16 id swap := by
  cases swap <;> rfl

/-- The loop of 42_encode.md R140 consumes one id for each Data frame, whatever buffer it reads. -/
theorem numberedFrames_dataFrames {swid : Byte} {swap : Bool} {buf : List Byte} {fuel : Nat} {c c' : Half}
    {off rem : Nat} {frames : List Frame} (h : dataFrames swid swap buf fuel c off rem = .ok (frames, c')) :
    NumberedFrames swap c c' frames := by
  induction fuel generalizing c c' off rem frames with
  | zero =>
    cases h
    exact numberedFrames_nil swap c
  | succ fuel ih =>
    simp only [dataFrames] at h
    split_ifs at h with hrem hn
    · cases h
      exact numberedFrames_nil swap c
    · split at h
      · cases h
      · next p hp =>
        split at h
        · cases h
        · next rest cEnd hrest =>
          cases h
          have hfirst : frameId (dataFrame swid swap c (min Config.maxChunk rem) p) = e16 c swap := by
            rw [dataFrame, List.append_assoc, frameId_header]
          exact numberedFrames_append (numberedFrames_singleton hfirst) (ih hrest)

/-- Whatever train an ENC delivers, well formed or not. -/
theorem numberedFrames_encodeTrain {swid : Byte} {swap : Bool} {seq c : Half} {flags : Byte} {len : Word}
    {buf : List Byte} {train : List Frame} (h : encodeTrain swid swap seq flags len buf = .ok (train, c)) :
    NumberedFrames swap seq c train := by
  unfold encodeTrain at h
  split at h
  · cases h
  · next frames c' hframes =>
    dsimp only at h
    split_ifs at h
    cases h
    have hstart : NumberedFrames swap seq (consume seq).2 [startFrame swid swap (consume seq).1 len] :=
      numberedFrames_singleton (frameId_header ..)
    have hstop : NumberedFrames swap c' (consume c').2 [stopFrame swid swap (consume c').1 flags] :=
      numberedFrames_singleton (frameId_header ..)
    exact numberedFrames_append (numberedFrames_append hstart (numberedFrames_dataFrames hframes)) hstop

/-- From `s` to `t` with the outputs `out`, the swap decision is held and the frames consume ids from SEQ on. -/
structure NumberedOutput (s t : State) (out : List Output) : Prop where
  swap : t.swap = s.swap
  frames : NumberedFrames s.swap s.seq t.seq (framesOf out)

theorem framesOf_append (as bs : List Output) : framesOf (as ++ bs) = framesOf as ++ framesOf bs := by
  simp [framesOf]

theorem numberedOutput_append {s t u : State} {as bs : List Output} (ha : NumberedOutput s t as)
    (hb : NumberedOutput t u bs) : NumberedOutput s u (as ++ bs) where
  swap := hb.swap.trans ha.swap
  frames := framesOf_append as bs ▸ numberedFrames_append ha.frames (ha.swap ▸ hb.frames)

/-- Output without frames leaves SEQ. -/
theorem numberedOutput_of_no_frames {s t : State} {out : List Output} (hswap : t.swap = s.swap) (hseq : t.seq = s.seq)
    (hout : framesOf out = []) : NumberedOutput s t out where
  swap := hswap
  frames := by rw [hseq, hout]; exact numberedFrames_nil ..

/-- Behind the output of `s` the port of `t` holds the output of one command, whose frames consume ids from SEQ on. -/
def AnswersNumbered (s t : State) : Prop :=
  t.taken = s.taken ∧ ∃ out, out ≠ [] ∧ t.port = s.port ++ out ∧ NumberedOutput s t out

theorem answersNumbered_of_response {s t : State} {r : Response} (htaken : t.taken = s.taken)
    (hport : t.port = s.port ++ [.response r]) (hswap : t.swap = s.swap) (hseq : t.seq = s.seq) :
    AnswersNumbered s t :=
  ⟨htaken, _, by simp, hport, numberedOutput_of_no_frames hswap hseq rfl⟩

theorem framesOf_train_response (train : List Frame) (r : Response) : framesOf [.train train, .response r] = train := by
  simp [framesOf, trainsOf]

theorem answersNumbered_encodeBuffer (r v t : Bool) (len : Word) (buf : List Byte) (s : State) :
    AnswersNumbered s (encodeBuffer r v t len buf s) := by
  obtain ⟨-, hb⟩ | ⟨-, train, c, htrain, hb⟩ | ⟨-, e, -, hb⟩ := encodeBuffer_cases r v t len buf s
  · exact hb ▸ answersNumbered_of_response rfl rfl rfl rfl
  · refine hb ▸ ⟨rfl, _, by simp, deliverTrain_port train c s, rfl, ?_⟩
    rw [framesOf_train_response]
    exact numberedFrames_encodeTrain htrain
  · exact hb ▸ answersNumbered_of_response rfl rfl rfl rfl

/-- Every command but a CFG that runs keeps the numbering (R123). -/
theorem exec_answersNumbered {i : Instr} {s t : State} (hi : ¬(isCfg i = true ∧ s.errInv = false))
    (h : exec i s = .next t) : AnswersNumbered s t := by
  obtain ⟨-, -, hu⟩ | ⟨-, -, v, hu⟩ | ⟨hf, swid, we, rfl, -⟩ | ⟨-, r, v, test, len, buf, rfl, hu⟩ := exec_cases i s
  · obtain rfl := Host.Outcome.next.inj (h.symm.trans hu)
    exact answersNumbered_of_response rfl rfl rfl rfl
  · obtain rfl := Host.Outcome.next.inj (h.symm.trans hu)
    exact answersNumbered_of_response rfl rfl rfl rfl
  · exact absurd ⟨rfl, hf⟩ hi
  · obtain rfl := Host.Outcome.next.inj (h.symm.trans hu)
    exact answersNumbered_encodeBuffer ..

theorem raiseIllegal_answersNumbered (s : State) : AnswersNumbered s (raiseIllegal s) := by
  obtain ⟨-, h⟩ | ⟨-, h⟩ := raiseIllegal_cases s
  all_goals exact h ▸ answersNumbered_of_response rfl rfl rfl rfl

theorem consume_wraps (c : Half) : (consume c).2.toNat = (c.toNat + 1) % 65536 := BitVec.toNat_add c 1

/-- Settles O33: `consume` by definition, and the train of an ENC in closed form. -/
theorem consumingSequenceIds : Obligations.ConsumingSequenceIds := by
  unfold Obligations.ConsumingSequenceIds
  refine ⟨fun c => ⟨rfl, consume_wraps c⟩, by decide, fun r v t len buf s hlen hf hc => ?train⟩
  have hseq : s.seq + BitVec.ofNat 16 (2 + specChunks len.toNat) =
      s.seq + BitVec.ofNat 16 (specTrain s r v t len buf).length := by rw [specTrain_length, hlen]
  exact ⟨_, _, _, exec_enc_complete r v t hlen hf hc, deliverTrain_port .., (deliverTrain_seq ..).trans hseq,
    fun j f => frameId_of_specTrain_getElem?⟩

theorem toNat_counter_add (c : Half) (n : Nat) : (c + BitVec.ofNat 16 n).toNat = (c.toNat + n) % 65536 := by
  rw [BitVec.toNat_add, BitVec.toNat_ofNat, Nat.add_mod_mod]

/-- Settles O34: O33 and the number of frames of the train in closed form, as numbers. -/
theorem encAdvancesSeqByItsFrames : Obligations.EncAdvancesSeqByItsFrames := by
  unfold Obligations.EncAdvancesSeqByItsFrames
  intro r v t len buf s hlen hf hc
  have hcount : (specTrain s r v t len buf).length = 2 + ceilDiv len.toNat 59 := by
    rw [specTrain_length, hlen, specChunks]
  have hseq : (s.seq + BitVec.ofNat 16 (2 + specChunks len.toNat)).toNat =
      (s.seq.toNat + (2 + ceilDiv len.toNat 59)) % 65536 := toNat_counter_add ..
  refine ⟨_, _, _, exec_enc_complete r v t hlen hf hc, deliverTrain_port .., hcount, ?_, ?_, fun j f hj => ?_⟩
  · rw [deliverTrain_seq, hseq, hcount]
  · rw [deliverTrain_seq, hseq, Nat.add_assoc]
  · exact ⟨_, toNat_counter_add s.seq j, frameId_of_specTrain_getElem? hj⟩

/-- Settles O26: `exec_answersNumbered` for every command but a CFG that runs, and `exec_answers_only` for a step. -/
theorem sequenceCounterPersists : Obligations.SequenceCounterPersists := by
  unfold Obligations.SequenceCounterPersists
  refine ⟨fun i s t h => ?command, fun s t hr h => ?reset, fun s t hr h hread => ?step, fun r v t len buf s u h => ?enc⟩
  case command =>
    split_ifs with hi
    · obtain ⟨hcfg, hf⟩ := hi
      cases i with
      | cfg swid we =>
        obtain rfl := Host.Outcome.next.inj (h.symm.trans (exec_cfg_running swid we hf))
        rfl
      | _ => cases hcfg
    · obtain ⟨-, out, -, hport, hnum⟩ := exec_answersNumbered hi h
      rw [hport, List.drop_left]
      exact hnum.frames.counter
  case reset => rw [eq_takeReset_of_step hr h, takeReset_seq]
  case step =>
    obtain ⟨-, rfl⟩ | ⟨-, -, rfl⟩ | ⟨-, why, ws, ds, -, rfl⟩ | ⟨-, i, ws, ds, u, hc, he, rfl⟩ := step_next_cases hr h
    · exact accept_seq s
    · rfl
    · obtain ⟨-, hill⟩ | ⟨-, hill⟩ := raiseIllegal_cases (consumeInput ws ds s) <;> simp [hill]
    · obtain ⟨hcfg, henc⟩ := hread i ws ds hc
      obtain ⟨resp, hu⟩ := exec_answers_only hcfg henc (consumeInput ws ds s)
      obtain rfl := Host.Outcome.next.inj (he.symm.trans hu)
      exact accept_seq _
  case enc =>
    obtain ⟨-, out, -, hport, hnum⟩ := exec_answersNumbered (by simp [isCfg]) h
    rw [hport, List.drop_left]
    refine ⟨fun f rest hf => ?head, fun hnone => ?none⟩
    case head =>
      have hid := numberedFrames_getElem? hnum.frames (k := 0) (by rw [hf]; rfl)
      rwa [BitVec.add_zero] at hid
    case none =>
      have hseq := hnum.frames.counter
      rwa [hnone, List.length_nil, BitVec.add_zero] at hseq

end Sys2Proof.Machine
end

section
/-! A session (41_generator_config.md R125): a CFG sets SEQ to 0, and the commands behind it consume ids one after
another, whether their meanings are taken one by one or hosts issue them and the framer runs (70_reset_and_hazards.md
R201). -/

namespace Sys2Proof.Machine

theorem numberedOutput_refl (s : State) : NumberedOutput s s [] := numberedOutput_of_no_frames rfl rfl rfl

/-- The numbering from the state that a CFG leaves. -/
theorem numberedOutput_from_zero {s t : State} {out : List Output} (hseq : s.seq = 0) (h : NumberedOutput s t out) :
    t.seq = BitVec.ofNat 16 (framesOf out).length ∧
      ∀ k f, (framesOf out)[k]? = some f → frameId f = e16 (BitVec.ofNat 16 k) s.swap := by
  obtain ⟨-, hframes⟩ := h
  rw [hseq] at hframes
  refine ⟨?_, fun k f hf => ?_⟩
  · rw [hframes.counter]
    exact BitVec.zero_add _
  · rw [numberedFrames_getElem? hframes hf]
    exact congrArg (e16 · s.swap) (BitVec.zero_add _)

theorem runAll_numberedOutput {is : List Instr} (his : ∀ i ∈ is, isCfg i = false) (s : State) :
    ∃ t out, runAll is s = .next t ∧ t.port = s.port ++ out ∧ NumberedOutput s t out := by
  induction is generalizing s with
  | nil => exact ⟨s, [], rfl, (List.append_nil _).symm, numberedOutput_refl s⟩
  | cons i is ih =>
    obtain ⟨hi, hrest⟩ := List.forall_mem_cons.mp his
    obtain ⟨u, hu, -⟩ := exec_hostEndian i s
    obtain ⟨-, out, -, hport, hnum⟩ := exec_answersNumbered (by simp [hi]) hu
    obtain ⟨t, more, ht, htport, htnum⟩ := ih hrest u
    refine ⟨t, out ++ more, ?_, by rw [htport, hport, List.append_assoc], numberedOutput_append hnum htnum⟩
    rw [runAll, hu]
    exact ht

/-- Settles O41: `runAll_numberedOutput` from the state that the CFG leaves. -/
theorem sessionFramesAreNumberedFromZero : Obligations.SessionFramesAreNumberedFromZero := by
  unfold Obligations.SessionFramesAreNumberedFromZero
  intro swid we is s hf his
  obtain ⟨t, out, ht, hport, hnum⟩ :=
    runAll_numberedOutput (fun i hi => (his i hi).2) (respondOk 0 (configure swid we s))
  have hframes : framesOf (t.port.drop s.port.length) = framesOf out := by
    rw [hport, respondOk_port, configure_port, List.append_assoc, List.drop_left]
    rfl
  refine ⟨t, ?_, ?_⟩
  · rw [runAll, exec_cfg_running swid we hf]
    exact ht
  · rw [hframes]
    exact numberedOutput_from_zero rfl hnum

/-- The inputs of the block, and whether the host accepts output, are in `t` those of `s`. -/
def SameInputs (s t : State) : Prop :=
  t.cmdIn = s.cmdIn ∧ t.dataIn = s.dataIn ∧ t.rst = s.rst ∧ t.ready = s.ready

theorem exec_sameInputs {i : Instr} {s t : State} (h : exec i s = .next t) : SameInputs s t := by
  obtain ⟨-, -, rfl⟩ | ⟨-, -, v, rfl⟩ | ⟨-, swid, we, -, rfl⟩ | ⟨-, -, -, rfl⟩ | ⟨-, -, -, train, c, rfl⟩ |
    ⟨-, -, -, rfl⟩ := exec_next_cases h
  all_goals exact ⟨rfl, rfl, rfl, rfl⟩

theorem raiseIllegal_sameInputs (s : State) : SameInputs s (raiseIllegal s) := by
  obtain ⟨-, h⟩ | ⟨-, h⟩ := raiseIllegal_cases s
  all_goals exact h ▸ ⟨rfl, rfl, rfl, rfl⟩

/-- Exactly the commands `cs` stand in the channels, and no reset is pending. -/
structure Queued (cs : List Command) (s : State) : Prop where
  words : s.cmdIn = (cs.map Command.words).flatten
  bytes : s.dataIn = (cs.map Command.bytes).flatten
  rst : s.rst = false

/-- `s` with exactly the commands `cs` in the channels. -/
def withQueue (cs : List Command) (s : State) : State :=
  consumeInput (cs.map Command.words).flatten (cs.map Command.bytes).flatten s

theorem queued_withQueue (cs : List Command) {s : State} (hr : s.rst = false) : Queued cs (withQueue cs s) :=
  ⟨rfl, rfl, hr⟩

theorem queued_accept {cs : List Command} {s : State} (h : Queued cs s) : Queued cs (accept s) where
  words := (accept_cmdIn s).trans h.words
  bytes := (accept_dataIn s).trans h.bytes
  rst := (accept_rst s).trans h.rst

theorem queued_of_sameInputs {cs : List Command} {s t : State} (h : Queued cs s) (hst : SameInputs s t) :
    Queued cs t := by
  obtain ⟨hwords, hbytes, hrst, -⟩ := hst
  exact ⟨hwords.trans h.words, hbytes.trans h.bytes, hrst.trans h.rst⟩

/-- In how many steps the host has to accept output until the commands `cs` are executed and all output is delivered. -/
def deliveriesLeft (cs : List Command) (s : State) : Nat := cs.length + if s.port = [] then 0 else 1

theorem deliveriesLeft_accept (cs : List Command) {s : State} (hp : s.port ≠ []) :
    deliveriesLeft cs (accept s) = cs.length + 1 - s.ready.toNat := by
  cases hready : s.ready <;> simp [deliveriesLeft, hready, hp]

/-- From `s` to `t` the block presents output whose frames consume ids from SEQ on, and loses none. -/
def DeliversNumbered (s t : State) : Prop :=
  ∃ out, t.taken ++ t.port = s.taken ++ s.port ++ out ∧ NumberedOutput s t out

theorem deliversNumbered_refl (s : State) : DeliversNumbered s s :=
  ⟨[], (List.append_nil _).symm, numberedOutput_refl s⟩

theorem deliversNumbered_trans {s t u : State} (hst : DeliversNumbered s t) (htu : DeliversNumbered t u) :
    DeliversNumbered s u := by
  obtain ⟨as, has, hnuma⟩ := hst
  obtain ⟨bs, hbs, hnumb⟩ := htu
  exact ⟨as ++ bs, by rw [hbs, has, List.append_assoc], numberedOutput_append hnuma hnumb⟩

/-- What a state has presented and its SEQ and SWAP are all of it that counts. -/
theorem deliversNumbered_congr {s t : State} (s' : State) (hout : s'.taken ++ s'.port = s.taken ++ s.port)
    (hswap : s'.swap = s.swap) (hseq : s'.seq = s.seq) (h : DeliversNumbered s' t) : DeliversNumbered s t := by
  obtain ⟨out, ht, hnum⟩ := h
  exact ⟨out, hout ▸ ht, hswap ▸ hnum.swap, hswap ▸ hseq ▸ hnum.frames⟩

theorem deliversNumbered_accept (s : State) : DeliversNumbered s (accept s) :=
  ⟨[], by rw [accept_taken_append_port, List.append_nil],
    numberedOutput_of_no_frames (accept_swap s) (accept_seq s) rfl⟩

theorem deliversNumbered_of_answersNumbered {s t : State} (h : AnswersNumbered s t) : DeliversNumbered s t := by
  obtain ⟨htaken, out, -, hport, hnum⟩ := h
  exact ⟨out, by rw [htaken, hport, List.append_assoc], hnum⟩

/-- A complete command that is no CFG, legal or illegal. -/
def InSession (c : Command) : Prop := isComplete c = true ∧ ∀ swid we, c ≠ commandOf (.cfg swid we)

theorem inSession_read {c : Command} (h : InSession c) :
    (∃ i, isCfg i = false ∧ ∀ ws ds, readCommand (c.words ++ ws) (c.bytes ++ ds) = .command i ws ds) ∨
    (∃ why, ∀ ws ds, readCommand (c.words ++ ws) (c.bytes ++ ds) = .illegal why ws ds) := by
  obtain ⟨hcomplete, hcfg⟩ := h
  obtain ⟨i, hi⟩ | hill := isComplete_read hcomplete
  · refine .inl ⟨i, ?_, hi⟩
    obtain ⟨hwords, hbytes, -⟩ := eachEncodingHasOneMeaning _ _ _ _ _ (hi [] [])
    have hc : c = commandOf i := by
      simp only [List.append_nil] at hwords hbytes
      rw [commandOf, ← hwords, ← hbytes]
    cases i with
    | cfg swid we => exact absurd hc (hcfg swid we)
    | _ => rfl
  · exact .inr hill

/-- With no output waiting, a step executes the command at the head of the channels and leaves the ones behind it. -/
theorem step_executes_head {c : Command} {cs : List Command} {s : State} (hc : InSession c) (hq : Queued (c :: cs) s)
    (hp : s.port = []) :
    ∃ t, step s = .next (accept t) ∧ t.port ≠ [] ∧ t.ready = s.ready ∧ Queued cs t ∧ DeliversNumbered s t := by
  suffices h : ∃ t, step s = .next (accept t) ∧ AnswersNumbered (withQueue cs s) t ∧ SameInputs (withQueue cs s) t by
    obtain ⟨t, ht, hans, hin⟩ := h
    have ⟨_, out, hne, hport, _⟩ := hans
    have ⟨_, _, _, hready⟩ := hin
    exact ⟨t, ht, by simp [hport, hne], hready, queued_of_sameInputs (queued_withQueue cs hq.rst) hin,
      deliversNumbered_congr (withQueue cs s) rfl rfl rfl (deliversNumbered_of_answersNumbered hans)⟩
  have hwords : s.cmdIn = c.words ++ (cs.map Command.words).flatten := hq.words
  have hbytes : s.dataIn = c.bytes ++ (cs.map Command.bytes).flatten := hq.bytes
  obtain ⟨i, hi, hread⟩ | ⟨why, hread⟩ := inSession_read hc
  · obtain ⟨t, ht, -⟩ := exec_hostEndian i (withQueue cs s)
    refine ⟨t, ?_, exec_answersNumbered (by simp [hi]) ht, exec_sameInputs ht⟩
    rw [step_of_command hq.rst hp (by rw [hwords, hbytes, hread]), ← withQueue, ht, settle]
  · exact ⟨_, step_of_illegal hq.rst hp (by rw [hwords, hbytes, hread]),
      raiseIllegal_answersNumbered (withQueue cs s), raiseIllegal_sameInputs (withQueue cs s)⟩

/-- A step of a session, whatever waits: no output is lost, and if the host accepts output one command less is left. -/
theorem step_queued {cs : List Command} {s : State} (hcs : ∀ c ∈ cs, InSession c) (hq : Queued cs s) :
    ∃ t rest, step s = .next t ∧ (∀ c ∈ rest, InSession c) ∧ Queued rest t ∧
      deliveriesLeft rest t ≤ deliveriesLeft cs s - s.ready.toNat ∧ DeliversNumbered s t := by
  by_cases hp : s.port = []
  · cases cs with
    | nil =>
      refine ⟨s, [], step_of_incomplete hq.rst hp ?_, hcs, hq, by simp [deliveriesLeft, hp], deliversNumbered_refl s⟩
      rw [hq.words]
      rfl
    | cons c cs =>
      obtain ⟨hc, hrest⟩ := List.forall_mem_cons.mp hcs
      obtain ⟨t, ht, hport, hready, hqt, hnum⟩ := step_executes_head hc hq hp
      refine ⟨accept t, cs, ht, hrest, queued_accept hqt, ?_, deliversNumbered_trans hnum (deliversNumbered_accept t)⟩
      rw [deliveriesLeft_accept cs hport, hready, deliveriesLeft, if_pos hp, List.length_cons, Nat.add_zero]
  · refine ⟨accept s, cs, step_of_waiting_output hq.rst hp, hcs, queued_accept hq, ?_, deliversNumbered_accept s⟩
    rw [deliveriesLeft_accept cs hp, deliveriesLeft, if_neg hp]

theorem count_true_cons (ready : Bool) (accepts : List Bool) :
    (ready :: accepts).count true = accepts.count true + ready.toNat := by
  cases ready <;> simp

theorem runEnded_port {s : State} (h : runEnded s = true) : s.port = [] := by
  rw [runEnded, Bool.and_eq_true] at h
  exact List.isEmpty_iff.mp h.2

/-- A session ends once the host has accepted output in enough steps, and its frames consume ids from SEQ on. -/
theorem advance_queued {accepts : List Bool} {cs : List Command} {s : State} (hcs : ∀ c ∈ cs, InSession c)
    (hq : Queued cs s) (hleft : deliveriesLeft cs s ≤ accepts.count true) :
    ∃ t, advance accepts s = .next t ∧ runEnded t = true ∧ DeliversNumbered s t := by
  induction accepts generalizing cs s with
  | nil =>
    have hport : s.port = [] := by
      by_contra hp
      simp [deliveriesLeft, hp] at hleft
    obtain rfl : cs = [] := by simpa [deliveriesLeft, hport] using hleft
    exact ⟨s, rfl, by simp [runEnded, hport, hq.words], deliversNumbered_refl s⟩
  | cons ready accepts ih =>
    obtain ⟨t, rest, ht, hrest, hqt, hless, hnum⟩ :=
      step_queued (s := setReady ready s) hcs ⟨hq.words, hq.bytes, hq.rst⟩
    have hcount : deliveriesLeft rest t ≤ accepts.count true := by
      have hsame : deliveriesLeft cs (setReady ready s) = deliveriesLeft cs s := rfl
      rw [hsame, setReady_ready] at hless
      rw [count_true_cons] at hleft
      omega
    obtain ⟨u, hu, hended, hnumu⟩ := ih hrest hqt hcount
    exact ⟨u, (advance_cons ht accepts).trans hu, hended,
      deliversNumbered_congr (setReady ready s) rfl rfl rfl (deliversNumbered_trans hnum hnumu)⟩

/-- `s` after a CFG with the commands `cs` behind it, its response not yet accepted. -/
def sessionStart (swid : Byte) (we : Endian) (cs : List Command) (s : State) : State :=
  respondOk 0 (configure swid we (withQueue cs s))

/-- The first step of a run that a CFG opens. -/
theorem step_queued_cfg {swid : Byte} {we : Endian} {cs : List Command} {s : State}
    (hq : Queued (commandOf (.cfg swid we) :: cs) s) (hp : s.port = []) (hf : s.errInv = false) :
    step s = .next (accept (sessionStart swid we cs s)) := by
  have hread : readCommand s.cmdIn s.dataIn =
      .command (.cfg swid we) (cs.map Command.words).flatten (cs.map Command.bytes).flatten := by
    rw [hq.words, hq.bytes]
    exact readingAnEncodedCommandGivesItBack (.cfg swid we) _ _ rfl
  have hf' : (withQueue cs s).errInv = false := hf
  rw [step_of_command hq.rst hp hread, ← withQueue, exec_cfg_running swid we hf', settle, sessionStart]

/-- A run that a CFG opens: the CFG's response, then output numbered from the state that the CFG leaves. -/
theorem advance_session {swid : Byte} {we : Endian} {cs : List Command} {accepts : List Bool} {s : State}
    (hcs : ∀ c ∈ cs, InSession c) (hq : Queued (commandOf (.cfg swid we) :: cs) s) (hp : s.port = [])
    (hf : s.errInv = false) (hcount : cs.length < accepts.count true) :
    ∃ t out, advance accepts s = .next t ∧ runEnded t = true ∧ t.taken = s.taken ++ .response ⟨.ok, 0⟩ :: out ∧
      NumberedOutput (configure swid we s) t out := by
  cases accepts with
  | nil => simp at hcount
  | cons ready accepts =>
    have hstep := step_queued_cfg (s := setReady ready s) ⟨hq.words, hq.bytes, hq.rst⟩ hp hf
    have hqueued : Queued cs (sessionStart swid we cs (setReady ready s)) := ⟨rfl, rfl, hq.rst⟩
    have hport : (sessionStart swid we cs (setReady ready s)).port = [.response ⟨.ok, 0⟩] := by
      simp [sessionStart, withQueue, hp]
    have hleft : deliveriesLeft cs (accept (sessionStart swid we cs (setReady ready s))) ≤ accepts.count true := by
      have hready : (sessionStart swid we cs (setReady ready s)).ready = ready := rfl
      rw [count_true_cons] at hcount
      rw [deliveriesLeft_accept cs (by simp [hport]), hready]
      omega
    obtain ⟨t, ht, hended, hnum⟩ := advance_queued hcs (queued_accept hqueued) hleft
    obtain ⟨out, hout, hswap, hframes⟩ := deliversNumbered_trans (deliversNumbered_accept _) hnum
    refine ⟨t, out, (advance_cons hstep accepts).trans ht, hended, ?_, hswap, hframes⟩
    rw [runEnded_port hended, hport, List.append_nil, List.append_assoc] at hout
    exact hout

/-- Settles O59: `advance_session` for the issued commands, whose observation is what the host has taken. -/
theorem observedSessionsAreNumberedFromZero : Obligations.ObservedSessionsAreNumberedFromZero := by
  unfold Obligations.ObservedSessionsAreNumberedFromZero
  intro swid we cs accepts s hcs hf hr hp hw hd hcount
  have hq : Queued (commandOf (.cfg swid we) :: cs) (issueAll (commandOf (.cfg swid we) :: cs) s) :=
    ⟨by rw [issueAll_cmdIn, hw, List.nil_append], by rw [issueAll_dataIn, hd, List.nil_append], hr⟩
  obtain ⟨t, out, ht, hended, htaken, hnum⟩ := advance_session hcs hq hp hf hcount
  have htrains : (observation s t).trains.flatten = framesOf out := by
    have hout : outputOfRun s t = .response ⟨.ok, 0⟩ :: out := by
      rw [outputOfRun, htaken, hp, issueAll_taken, List.length_nil, Nat.add_zero, List.drop_left]
    rw [observation, hout]
    rfl
  refine ⟨observation s t, observeRun_eq_some.mpr ⟨t, ht, hended, rfl⟩, ?_⟩
  rw [htrains]
  exact numberedOutput_from_zero rfl hnum

end Sys2Proof.Machine
end

section
/-! What an ENC delivers (42_encode.md R140 to R153): one Start, a Data frame for each chunk and one Stop frame. The
chunks partition the buffer, so the payloads laid end to end give it back, from any point of the loop as from its
start. -/

namespace Sys2Proof.Machine

theorem length_specChunk (buf : List Byte) (j : Nat) : (specChunk buf j).length = min 59 (buf.length - 59 * j) := by
  rw [specChunk, List.length_take, List.length_drop]

theorem specChunk_eq_take_length (buf : List Byte) (j : Nat) :
    specChunk buf j = (buf.drop (59 * j)).take (specChunk buf j).length := by
  rw [length_specChunk, ← List.length_drop]
  exact List.take_eq_take_min

/-- Every chunk ends within the buffer; all but the last have 59 bytes, and the last has the remainder (R142). -/
theorem specChunk_partition {buf : List Byte} {j : Nat} (h : j < specChunks buf.length) :
    59 * j + (specChunk buf j).length ≤ buf.length ∧
    (j + 1 < specChunks buf.length → (specChunk buf j).length = 59) ∧
    (j + 1 = specChunks buf.length → (specChunk buf j).length = buf.length - 59 * (specChunks buf.length - 1)) := by
  rw [length_specChunk]
  unfold specChunks ceilDiv at h ⊢
  omega

/-- The chunks before number `k` are the first `59 k` bytes: no gap, no overlap (R142). -/
theorem flatten_specChunks_range (buf : List Byte) (k : Nat) :
    ((List.range k).map (specChunk buf)).flatten = buf.take (59 * k) := by
  induction k with
  | zero => rfl
  | succ k ih =>
    rw [List.range_succ, List.map_append, List.flatten_append, ih, Nat.mul_succ, List.take_add]
    exact congrArg (buf.take (59 * k) ++ ·) (List.append_nil _)

theorem flatten_specChunks (buf : List Byte) :
    ((List.range (specChunks buf.length)).map (specChunk buf)).flatten = buf := by
  have henough : buf.length ≤ 59 * specChunks buf.length := by
    unfold specChunks ceilDiv
    omega
  rw [flatten_specChunks_range, List.take_of_length_le henough]

theorem framePayload_specData (swid : Byte) (swap : Bool) (id : Half) (buf : List Byte) (j : Nat) :
    framePayload (specData swid swap id buf j) = specChunk buf j := by
  cases swap <;> rfl

theorem framePayload_specHeader_of_ne (swid : Byte) (swap : Bool) (id : Half) {kind : Byte} (h : kind ≠ 2)
    (rest : List Byte) : framePayload (specHeader swid swap id kind ++ rest) = [] := by
  rw [framePayload, frameKind_specHeader, if_neg (by simpa using h)]

/-- The loop, from any point at which its counters agree, emits the Data frames of the chunks of the rest (R153). -/
theorem dataFrames_rest (swid : Byte) (swap : Bool) {buf : List Byte} {fuel : Nat} (c : Half) {off rem : Nat}
    (h : off + rem = buf.length) (hfuel : rem ≤ fuel) :
    dataFrames swid swap buf fuel c off rem =
      .ok ((List.range (ceilDiv rem 59)).map
          (fun j => specData swid swap (c + BitVec.ofNat 16 j) (buf.drop off) j),
        c + BitVec.ofNat 16 (ceilDiv rem 59)) := by
  simp only [dataFrames_closed_form _ _ _ _ c off rem h hfuel, ← dataFrame_spec, specChunk, List.drop_drop]

/-- Settles O40: the payloads of `dataFrames_rest` are the chunks of the rest of the buffer. -/
theorem chunkerCountersAgree : Obligations.ChunkerCountersAgree := by
  unfold Obligations.ChunkerCountersAgree
  intro swid swap buf fuel c off rem h hfuel
  have hrem : rem = (buf.drop off).length := by rw [List.length_drop]; omega
  refine ⟨_, dataFrames_rest swid swap c h hfuel, by rw [List.length_map, List.length_range], ?payloads⟩
  case payloads =>
    simp only [List.map_map, Function.comp_def, framePayload_specData]
    rw [hrem]
    exact flatten_specChunks (buf.drop off)

theorem flatten_map_framePayload_specTrain (s : State) (r v t : Bool) (len : Word) (buf : List Byte) :
    ((specTrain s r v t len buf).map framePayload).flatten = buf := by
  have hstart : framePayload (specStart s.swid s.swap s.seq len) = [] :=
    framePayload_specHeader_of_ne _ _ _ (by decide) _
  have hstop := framePayload_specHeader_of_ne s.swid s.swap
    (s.seq + BitVec.ofNat 16 (1 + specChunks buf.length)) (kind := 3) (by decide) [specFlags r v t]
  simp only [specTrain, List.map_append, List.map_cons, List.map_nil, List.map_map, Function.comp_def, hstart, hstop,
    framePayload_specData, List.flatten_append, List.flatten_cons, List.flatten_nil, List.nil_append, List.append_nil]
  exact flatten_specChunks buf

/-- Settles O37: the payloads are the chunks, and the Start frame's size field is composed back
(`composeUndoesTheEncoders`). -/
theorem payloadsReconstructTheBuffer : Obligations.PayloadsReconstructTheBuffer := by
  unfold Obligations.PayloadsReconstructTheBuffer
  intro r v t len buf s hlen hf hc
  obtain ⟨-, hword⟩ := composeUndoesTheEncoders
  obtain ⟨a, b, c, d, hsize, hcompose⟩ := hword len s.swap
  refine ⟨_, _, _, exec_enc_complete r v t hlen hf hc, deliverTrain_port .., flatten_map_framePayload_specTrain ..,
    a, b, c, d, ?_, hcompose⟩
  have hstart : (specStart s.swid s.swap s.seq len).drop 4 = e32 len s.swap := by cases s.swap <;> rfl
  exact congrArg some (hstart.trans hsize)

/-- Frame `1 + j` of a train is the Data frame of chunk `j`. -/
theorem specTrain_getElem?_data (s : State) (r v t : Bool) (len : Word) {buf : List Byte} {j : Nat}
    (h : j < specChunks buf.length) :
    (specTrain s r v t len buf)[1 + j]? =
      some (specData s.swid s.swap (s.seq + BitVec.ofNat 16 (1 + j)) buf j) := by
  have hdata : ((List.range (specChunks buf.length)).map fun j =>
      specData s.swid s.swap (s.seq + BitVec.ofNat 16 (1 + j)) buf j)[j]? =
        some (specData s.swid s.swap (s.seq + BitVec.ofNat 16 (1 + j)) buf j) := by
    rw [List.getElem?_map, List.getElem?_range h, Option.map_some]
  rw [Nat.add_comm, specTrain, List.cons_append, List.getElem?_cons_succ]
  exact List.getElem?_append_left (by simpa using h) |>.trans (by rwa [Nat.add_comm j])

theorem specData_size (swid : Byte) (swap : Bool) (id : Half) (buf : List Byte) (j : Nat) :
    (specData swid swap id buf j)[4]? = some (BitVec.ofNat 8 (specChunk buf j).length) := by
  cases swap <;> rfl

/-- Settles O36: frame `1 + j` is the Data frame of chunk `j` (`specTrain_getElem?_data`), and `specChunk_partition`. -/
theorem chunksPartitionTheBuffer : Obligations.ChunksPartitionTheBuffer := by
  unfold Obligations.ChunksPartitionTheBuffer
  intro r v t len buf s hlen hf hc
  rw [← hlen]
  refine ⟨_, _, _, exec_enc_complete r v t hlen hf hc, deliverTrain_port .., specTrain_length ..,
    fun j hj => ?chunk⟩
  case chunk =>
    obtain ⟨hmin, hmax⟩ := specChunk_length hj
    obtain ⟨hend, hfull, hlast⟩ := specChunk_partition hj
    have hid : s.seq + BitVec.ofNat 16 (1 + j) = s.seq + 1 + BitVec.ofNat 16 j := by
      rw [Nat.add_comm, ← counter_add_one]
      rfl
    refine ⟨_, (specChunk buf j).length, specTrain_getElem?_data s r v t len hj, frameKind_specHeader .., ?_,
      specData_size .., ?_, hend, hmin, hmax, hfull, hlast⟩
    · rw [← hid]
      exact frameId_specHeader ..
    · rw [framePayload_specData]
      exact specChunk_eq_take_length buf j

theorem specTrain_getLast? (s : State) (r v t : Bool) (len : Word) (buf : List Byte) :
    (specTrain s r v t len buf).getLast? =
      some (specHeader s.swid s.swap (s.seq + BitVec.ofNat 16 (1 + specChunks buf.length)) 3 ++ [specFlags r v t]) :=
  List.getLast?_concat

theorem specHeader_append_shape (swid : Byte) (swap : Bool) (id : Half) (kind x : Byte) :
    (specHeader swid swap id kind ++ [x]).length = 5 ∧ (specHeader swid swap id kind ++ [x])[4]? = some x := by
  cases swap <;> exact ⟨rfl, rfl⟩

/-- Settles O38: the flags byte by its eight values, and the last frame of the train in closed form. -/
theorem stopFrameFlags : Obligations.StopFrameFlags := by
  unfold Obligations.StopFrameFlags
  refine ⟨by decide, fun r v t len buf s hlen hf hc => ?last⟩
  case last =>
    obtain ⟨hfive, hflags⟩ := specHeader_append_shape s.swid s.swap
      (s.seq + BitVec.ofNat 16 (1 + specChunks buf.length)) 3 (specFlags r v t)
    exact ⟨_, _, _, _, exec_enc_complete r v t hlen hf hc, deliverTrain_port .., specTrain_getLast? .., hfive,
      frameKind_specHeader .., packFlags_spec r v t ▸ hflags⟩

/-- A buffer of at most `2^32 - 1` bytes, as LEN allows, makes at most 72,796,058 frames (R151). -/
theorem frameCount_le (len : Word) : 2 + specChunks len.toNat ≤ 72796058 := by
  have := len.isLt
  unfold specChunks ceilDiv
  omega

/-- Settles O35. -/
theorem trainShapeAndCount : Obligations.TrainShapeAndCount := by
  unfold Obligations.TrainShapeAndCount
  intro r v t len buf s hlen hf hc
  have hcount : (specTrain s r v t len buf).length = 2 + specChunks len.toNat := hlen ▸ specTrain_length ..
  have hmax := frameCount_le len
  have hresult : (BitVec.ofNat 32 (specTrain s r v t len buf).length).toNat = (specTrain s r v t len buf).length :=
    Nat.mod_eq_of_lt (by omega)
  exact ⟨_, _, _, exec_enc_complete r v t hlen hf hc, deliverTrain_port .., hlen ▸ map_frameKind_specTrain ..,
    hcount, hresult, (hresult.trans hcount).trans_le hmax,
    fun f hmem => frameOk_length_le (frameOk_specTrain s r v t len buf f hmem)⟩

theorem deliverTrain_eq (train : List Frame) (c : Half) (s : State) :
    deliverTrain train c s = { s with
      seq := c, port := s.port ++ [.train train, .response ⟨.ok, BitVec.ofNat 32 train.length⟩] } := by
  rw [List.append_cons]
  rfl

/-- An ENC with its LEN data bytes in a configured block that is not FAULTED, as one equation of states. -/
theorem exec_enc_complete_eq (r v t : Bool) {len : Word} {buf : List Byte} {s : State} (hlen : buf.length = len.toNat)
    (hf : s.errInv = false) (hc : s.cfgd = true) :
    exec (.enc r v t len buf) s = .next { s with
      seq := s.seq + BitVec.ofNat 16 (2 + specChunks len.toNat)
      port := s.port ++ [.train (specTrain s r v t len buf),
        .response ⟨.ok, BitVec.ofNat 32 (2 + specChunks len.toNat)⟩] } := by
  rw [exec_enc_complete r v t hlen hf hc, deliverTrain_eq, specTrain_length, hlen]

/-- Settles O32: an ENC's train in closed form, its two errors, its encoding and its illegal form. -/
theorem encCommand : Obligations.EncCommand := by
  unfold Obligations.EncCommand
  refine ⟨fun r v t len buf s => exec_enc_complete_eq r v t, fun r v t len buf s hf hc => ?notConfigured,
    fun _ _ _ _ _ _ => exec_answer_faulted rfl, fun r v t len buf => ?encoding, fun w0 w1 ws ds hop hres hd => ?illegal,
    by decide, fun s hswid hswap hseq => ?row⟩
  case notConfigured =>
    obtain ⟨u, hu, -⟩ := exec_hostEndian (.enc r v t len buf) s
    rw [hu, exec_enc_unconfigured rfl hf hc hu]
    rfl
  case encoding =>
    refine ⟨_, rfl, (wordZero_enc r v t len buf).trans ?_, rfl⟩
    rw [wordZero]
    omega
  case illegal =>
    rw [readCommand_with_data hop hd]
    exact judge_reservedBits (op := .enc) hop (beq_false_of_ne hres) w1 _ ws _
  case row =>
    rw [specTrain, hswid, hswap, hseq]
    rfl

theorem specHeader_eq_header (swid : Byte) (swap : Bool) (id : Half) (kind : Byte) :
    specHeader swid swap id kind = header swid swap id kind := by
  cases swap <;> rfl

theorem specTrain_empty (s : State) (r v t : Bool) :
    specTrain s r v t 0 [] = [header s.swid s.swap s.seq 1 ++ [0, 0, 0, 0],
      header s.swid s.swap (s.seq + 1) 3 ++ [packFlags r v t]] := by
  have hstart : specStart s.swid s.swap s.seq 0 = specHeader s.swid s.swap s.seq 1 ++ [0, 0, 0, 0] := by
    cases s.swap <;> rfl
  rw [← specHeader_eq_header, ← specHeader_eq_header, packFlags_spec, ← hstart]
  rfl

/-- Settles O39: an ENC without data bytes, and `exec_enc_complete_eq` at L = 0. -/
theorem zeroLengthBuffer : Obligations.ZeroLengthBuffer := by
  unfold Obligations.ZeroLengthBuffer
  refine fun r v t s hf hc => ⟨fun ws ds => ?reading, ?train⟩
  case reading => exact readingAnEncodedCommandGivesItBack (.enc r v t 0 []) ws ds rfl
  case train =>
    rw [exec_enc_complete_eq r v t rfl hf hc, specTrain_empty]
    rfl

end Sys2Proof.Machine
end

section
/-! InvariantFault (60_exceptions.md R173): every step has a next state and none raises it, since what a step runs has all
its data bytes; the loop of an ENC with too few of them reads outside its buffer (20_memory.md R41). -/

namespace Sys2Proof.Machine

/-- Settles O7. -/
theorem everyStateHasANextState : Obligations.EveryStateHasANextState := by
  unfold Obligations.EveryStateHasANextState
  intro s
  obtain ⟨t, h, -⟩ := step_hostEndian s
  exact ⟨t, h⟩

theorem raise_neverFaults {e : ErrorCause} {s : State} (he : e ≠ .invariantFault) (hf : s.errInv = false) :
    (raise e s).errInv = false := by
  simpa [hf] using he

theorem raiseIllegal_neverFaults {s : State} (hf : s.errInv = false) : (raiseIllegal s).errInv = false :=
  raiseIllegal_running hf ▸ raise_neverFaults (by decide) hf

/-- An instruction with all its data bytes keeps a block out of FAULTED: its ends are those of `exec_wellFormed_cases`. -/
theorem exec_wellFormed_neverFaults {i : Instr} {s t : State} (hwf : wellFormed i = true) (hf : s.errInv = false)
    (h : exec i s = .next t) : t.errInv = false := by
  obtain ⟨v, rfl⟩ | ⟨swid, we, rfl⟩ | rfl | ⟨-, r, v, test, len, buf, c, rfl⟩ := exec_wellFormed_cases hwf hf h
  · exact hf
  · exact hf
  · exact raise_neverFaults (by decide) hf
  · exact hf

/-- Settles O51: the command a step runs has all its data bytes (`wellFormed_of_readCommand`), so the loop of an ENC keeps
within its buffer and no check fails (`encodeTrain_closed_form`, in `exec_wellFormed_cases`). -/
theorem conformingBlockNeverFaults : Obligations.ConformingBlockNeverFaults := by
  unfold Obligations.ConformingBlockNeverFaults
  intro s t h hf
  cases hr : s.rst with
  | true => exact eq_takeReset_of_step hr h ▸ takeReset_errInv s
  | false =>
    have hconsume (ws : List Word) (ds : List Byte) : (consumeInput ws ds s).errInv = false := hf
    obtain ⟨-, rfl⟩ | ⟨-, -, rfl⟩ | ⟨-, why, ws, ds, -, rfl⟩ | ⟨-, i, ws, ds, u, hc, he, rfl⟩ := step_next_cases hr h
    · exact (accept_errInv s).trans hf
    · exact hf
    · exact (accept_errInv _).trans (raiseIllegal_neverFaults (hconsume ws ds))
    · exact (accept_errInv u).trans (exec_wellFormed_neverFaults (wellFormed_of_readCommand hc) (hconsume ws ds) he)

/-- The loop that is to read past the end of the buffer fails in the turn that comes to the end: the turns before it
leave `off + rem` as it is (42_encode.md R153). -/
theorem dataFrames_outside (swid : Byte) (swap : Bool) {buf : List Byte} {fuel : Nat} (c : Half) {off rem : Nat}
    (hfuel : rem ≤ fuel) (hrem : rem ≠ 0) (hout : buf.length < off + rem) :
    ∃ e, dataFrames swid swap buf fuel c off rem = .error e := by
  induction fuel generalizing c off rem with
  | zero => exact absurd (Nat.le_zero.mp hfuel) hrem
  | succ fuel ih =>
    have hchunk : 1 ≤ min Config.maxChunk rem ∧ min Config.maxChunk rem ≤ Config.maxChunk := by
      simp only [Config.maxChunk]
      omega
    rw [dataFrames, if_neg hrem, if_pos hchunk]
    cases hread : memRead buf off (min Config.maxChunk rem) with
    | none => exact ⟨_, rfl⟩
    | some p =>
      have hin : off + min 59 rem ≤ buf.length :=
        Nat.le_of_not_lt fun h => by simp [Config.maxChunk, memRead_outside h] at hread
      obtain ⟨e, he⟩ := ih (consume c).2 (off := off + 59) (rem := rem - min 59 rem) (by omega) (by omega) (by omega)
      exact ⟨e, by simp only [Config.maxChunk, he]⟩

theorem encodeTrain_outside (swid : Byte) (swap : Bool) (seq : Half) (flags : Byte) {len : Word} {buf : List Byte}
    (h : buf.length < len.toNat) : ∃ e, encodeTrain swid swap seq flags len buf = .error e := by
  obtain ⟨e, he⟩ := dataFrames_outside swid swap (consume seq).2 (off := 0) le_rfl (Nat.ne_zero_of_lt h)
    (by rwa [Nat.zero_add])
  exact ⟨e, by rw [encodeTrain, he]⟩

/-- Settles O47: the train fails (`encodeTrain_outside`), and nothing of it is delivered. -/
theorem invariantFaultError : Obligations.InvariantFaultError := by
  unfold Obligations.InvariantFaultError
  intro r v t len buf s hf hc hshort
  have hrun : exec (.enc r v t len buf) s = .next (encodeBuffer r v t len buf s) :=
    congrArg Host.Outcome.next (unlessFaulted_running _ hf)
  obtain ⟨e, he⟩ := encodeTrain_outside s.swid s.swap s.seq (packFlags r v t) hshort
  obtain ⟨hc', -⟩ | ⟨-, train, c, hok, -⟩ | ⟨-, -, -, hraise⟩ := encodeBuffer_cases r v t len buf s
  · simp [hc] at hc'
  · simp [he] at hok
  · rw [hrun, hraise]
    rfl

end Sys2Proof.Machine
end

section
/-! The errors of a command (60_exceptions.md R170 to R172, R176): each sets one sticky bit or none, and answers one
response with result 0. -/

namespace Sys2Proof.Machine

@[simp] theorem registersOf_accept (s : State) : registersOf (accept s) = registersOf s := by simp [registersOf]

/-- Settles O44. -/
theorem statusCodes : Obligations.StatusCodes := by
  unfold Obligations.StatusCodes
  refine ⟨rfl, rfl, rfl, rfl, rfl, fun st => ?bound, fun e s => ?raised, fun _ => rfl⟩
  case bound => cases st <;> decide
  case raised => cases e <;> rfl

/-- The host's acceptance at the end of a command keeps what the command did to the registers, the channels and the
outputs (70_reset_and_hazards.md R199). -/
theorem step_answers {s u : State} {r : Response} (h : step s = .next (accept u)) (hp : s.port = [])
    (htaken : u.taken = s.taken) (hport : u.port = s.port ++ [.response r]) :
    ∃ t, step s = .next t ∧ registersOf t = registersOf u ∧ t.cmdIn = u.cmdIn ∧ t.dataIn = u.dataIn ∧
      t.taken ++ t.port = s.taken ++ [.response r] :=
  ⟨_, h, registersOf_accept u, accept_cmdIn u, accept_dataIn u, by
    rw [accept_taken_append_port, htaken, hport, hp, List.nil_append]⟩

/-- Settles O45. -/
theorem illegalCommandError : Obligations.IllegalCommandError := by
  unfold Obligations.IllegalCommandError
  intro s why ws ds hr hp hf hc
  exact step_answers (step_of_illegal_running hr hp hf hc) hp rfl rfl

/-- Settles O46: `exec_enc_unconfigured`, and the response of every other end that `exec_next_cases` names. -/
theorem notConfiguredError : Obligations.NotConfiguredError := by
  unfold Obligations.NotConfiguredError
  refine ⟨fun s r v t len buf ws ds hr hp hf hcfgd hc => ?enc, fun i s t henc h => ?others⟩
  case enc =>
    obtain ⟨u, he, -⟩ := exec_hostEndian (.enc r v t len buf) (consumeInput ws ds s)
    have hu : u = raise .notConfigured (consumeInput ws ds s) := exec_enc_unconfigured rfl hf hcfgd he
    have hstep : step s = .next (accept (raise .notConfigured (consumeInput ws ds s))) := by
      rw [step_of_command hr hp hc, he, settle, hu]
    exact step_answers hstep hp rfl rfl
  case others =>
    obtain ⟨-, -, rfl⟩ | ⟨-, -, w, rfl⟩ | ⟨-, swid, we, -, rfl⟩ | ⟨-, henc', -⟩ | ⟨-, henc', -⟩ | ⟨-, henc', -⟩ :=
      exec_next_cases h
    · simp
    · simp
    · simp
    · simp [henc] at henc'
    · simp [henc] at henc'
    · simp [henc] at henc'

theorem eq_of_last_response {out : List Output} {st st' : Status} {v v' : Word}
    (h : (out ++ [Output.response ⟨st, v⟩]).getLast? = some (.response ⟨st', v'⟩)) : st' = st ∧ v' = v := by
  simpa [eq_comm] using h

/-- Settles O50: each end that `exec_next_cases` names presents its response last. -/
theorem errorsArePrecise : Obligations.ErrorsArePrecise := by
  unfold Obligations.ErrorsArePrecise
  intro i s t st v h hlast herr
  obtain ⟨hf, -, rfl⟩ | ⟨-, -, w, rfl⟩ | ⟨-, swid, we, -, rfl⟩ | ⟨-, -, -, rfl⟩ | ⟨-, -, -, train, c, rfl⟩ |
    ⟨-, -, -, rfl⟩ := exec_next_cases h
  · obtain ⟨rfl, rfl⟩ := eq_of_last_response hlast
    exact ⟨rfl, rfl, rfl, rfl, .inr (.inr ⟨rfl, hf, rfl⟩)⟩
  · obtain ⟨rfl, rfl⟩ := eq_of_last_response hlast
    exact absurd rfl herr
  · obtain ⟨rfl, rfl⟩ := eq_of_last_response hlast
    exact absurd rfl herr
  · obtain ⟨rfl, rfl⟩ := eq_of_last_response hlast
    exact ⟨rfl, rfl, rfl, rfl, .inl ⟨rfl, rfl⟩⟩
  · obtain ⟨rfl, rfl⟩ := eq_of_last_response hlast
    exact absurd rfl herr
  · obtain ⟨rfl, rfl⟩ := eq_of_last_response hlast
    exact ⟨rfl, rfl, rfl, rfl, .inr (.inl ⟨rfl, rfl⟩)⟩

end Sys2Proof.Machine
end

section
/-! The FAULTED block (60_exceptions.md R174), and the one status that a step reports in the order of R175. -/

namespace Sys2Proof.Machine

/-- A FAULTED block refuses every instruction but STAT (R174). -/
theorem exec_faulted {i : Instr} {s : State} (hi : i ≠ .stat) (hf : s.errInv = true) :
    exec i s = .next (refuseFaulted s) := by
  cases i with
  | stat => exact absurd rfl hi
  | _ => exact exec_answer_faulted rfl hf

/-- A FAULTED block refuses every complete command but a legal STAT, an illegal one too. -/
theorem step_faulted {s : State} {ws : List Word} {ds : List Byte} (hr : s.rst = false) (hp : s.port = [])
    (hf : s.errInv = true) (hc : (∃ why, readCommand s.cmdIn s.dataIn = .illegal why ws ds) ∨
      ∃ i, i ≠ .stat ∧ readCommand s.cmdIn s.dataIn = .command i ws ds) :
    step s = .next (accept (refuseFaulted (consumeInput ws ds s))) := by
  have hf' : (consumeInput ws ds s).errInv = true := hf
  obtain ⟨why, hc⟩ | ⟨i, hi, hc⟩ := hc
  · rw [step_of_illegal hr hp hc, raiseIllegal_faulted hf']
  · rw [step_of_command hr hp hc, exec_faulted hi hf', settle]

/-- Settles O48: STAT runs, `exec_faulted` and `step_faulted` for the rest, and no step but a reset clears ERR_INV. -/
theorem faultedBlockRefusesAllButStat : Obligations.FaultedBlockRefusesAllButStat := by
  unfold Obligations.FaultedBlockRefusesAllButStat
  refine ⟨fun _ _ => rfl, fun _ _ => exec_faulted,
    fun s ws ds hr hp hf hc => step_answers (step_faulted hr hp hf hc) hp rfl rfl, fun s t hf h hleft => ?onlyReset,
    fun s hr => ⟨_, step_of_reset hr, takeReset_errInv s⟩⟩
  case onlyReset =>
    by_contra hr
    obtain ⟨-, -, hkeeps⟩ := step_keepsErrors (Bool.eq_false_iff.mpr hr) h
    exact Bool.false_ne_true (hleft.symm.trans (hkeeps hf))

/-- The status of an instruction with all its data bytes, in the order of R175. -/
def reportedStatus (i : Instr) (s : State) : Status :=
  if s.errInv = true ∧ i ≠ .stat then .faulted
  else if isEnc i = true ∧ s.cfgd = false then .notConfigured else .ok

/-- Behind the responses of `s`, those of `t` hold one more, with status `st`. -/
def Reports (st : Status) (s t : State) : Prop :=
  ∃ v, responsesOf (t.taken ++ t.port) = responsesOf (s.taken ++ s.port) ++ [⟨st, v⟩]

theorem reports_respond (st : Status) (v : Word) (s : State) : Reports st s (respond st v s) :=
  ⟨v, by simp [responsesOf]⟩

theorem reports_raise (e : ErrorCause) (s : State) : Reports (causeStatus e) s (raise e s) :=
  ⟨0, by simp [responsesOf]⟩

theorem reports_deliverTrain (train : List Frame) (c : Half) (s : State) : Reports .ok s (deliverTrain train c s) :=
  ⟨BitVec.ofNat 32 train.length, by simp [responsesOf]⟩

theorem reports_accept {st : Status} {s t : State} (h : Reports st s t) : Reports st s (accept t) := by
  rwa [Reports, accept_taken_append_port]

theorem raiseIllegal_reports (s : State) :
    Reports (if s.errInv then .faulted else .illegalCommand) s (raiseIllegal s) := by
  obtain ⟨hf, h⟩ | ⟨hf, h⟩ := raiseIllegal_cases s
  · rw [h, if_pos hf]
    exact reports_respond ..
  · rw [h, hf]
    exact reports_raise .illegalCommand s

theorem exec_wellFormed_reports {i : Instr} {s t : State} (hwf : wellFormed i = true) (h : exec i s = .next t) :
    Reports (reportedStatus i s) s t := by
  by_cases href : s.errInv = true ∧ i ≠ .stat
  · obtain ⟨hf, hi⟩ := href
    obtain rfl := Host.Outcome.next.inj (h.symm.trans (exec_faulted hi hf))
    rw [reportedStatus, if_pos ⟨hf, hi⟩]
    exact reports_respond ..
  · rw [reportedStatus, if_neg href]
    obtain ⟨hf, hi, -⟩ | ⟨-, henc, v, hu⟩ | ⟨-, swid, we, rfl, hu⟩ | ⟨hf, r, v, test, len, buf, rfl, hu⟩ := exec_cases i s
    · exact absurd ⟨hf, hi⟩ href
    · obtain rfl := Host.Outcome.next.inj (h.symm.trans hu)
      rw [if_neg (by simp [henc])]
      exact reports_respond ..
    · obtain rfl := Host.Outcome.next.inj (h.symm.trans hu)
      exact reports_respond .ok 0 (configure swid we s)
    · cases hc : s.cfgd with
      | false =>
        rw [exec_enc_unconfigured rfl hf hc h]
        exact reports_raise .notConfigured s
      | true =>
        obtain rfl := Host.Outcome.next.inj (h.symm.trans (exec_enc_complete r v test (beq_iff_eq.mp hwf) hf hc))
        exact reports_deliverTrain ..

/-- The one response of the command that a step ends, accepted by the host or still waiting. -/
theorem step_reports {st : Status} {s u : State} {ws : List Word} {ds : List Byte} (h : step s = .next (accept u))
    (hp : s.port = []) (hu : Reports st (consumeInput ws ds s) u) :
    ∃ t v, step s = .next t ∧ responsesOf (t.taken ++ t.port) = responsesOf s.taken ++ [⟨st, v⟩] := by
  obtain ⟨v, hv⟩ := reports_accept hu
  exact ⟨_, v, h, by simpa [hp] using hv⟩

/-- Settles O49: `raiseIllegal_reports` and `exec_wellFormed_reports`, the command read having all its data bytes. -/
theorem errorPriority : Obligations.ErrorPriority := by
  unfold Obligations.ErrorPriority
  intro s hr hp
  cases hc : readCommand s.cmdIn s.dataIn with
  | incomplete => exact step_of_incomplete hr hp hc
  | illegal why ws ds => exact step_reports (step_of_illegal hr hp hc) hp (raiseIllegal_reports (consumeInput ws ds s))
  | command i ws ds =>
    obtain ⟨u, he, -⟩ := exec_hostEndian i (consumeInput ws ds s)
    have hstep : step s = .next (accept u) := by rw [step_of_command hr hp hc, he, settle]
    have hreports := exec_wellFormed_reports (wellFormed_of_readCommand hc) he
    exact step_reports hstep hp hreports

end Sys2Proof.Machine
end

section
/-! What a reset leaves in the channels (70_reset_and_hazards.md R190, R191): the complete commands, and nothing of the
partly arrived one behind them; and the registers it leaves (R192 to R196). -/

namespace Sys2Proof

theorem judge_ne_incomplete (w0 w1 : Word) (buf : List Byte) (ws : List Word) (ds : List Byte) :
    judge w0 w1 buf ws ds ≠ .incomplete := by
  unfold judge
  cases decodeCommand w0 w1 buf <;> simp

/-- A two-word command without its second word is incomplete (R198). -/
theorem readCommand_first_word {w0 : Word} (h : commandWords (opcField w0) = 2) (ds : List Byte) :
    readCommand [w0] ds = .incomplete := by
  simp [readCommand, h]

/-- An ENC with both words is incomplete exactly while data bytes are missing (R198). -/
theorem readCommand_enc_incomplete_iff {w0 : Word} (h : opcField w0 = 0x02) (w1 : Word) (ws : List Word)
    (ds : List Byte) : readCommand (w0 :: w1 :: ws) ds = .incomplete ↔ ds.length < w1.toNat := by
  refine ⟨fun hread => ?_, fun hlt => by simp [readCommand, h, commandWords, commandBytes, hlt]⟩
  by_contra hge
  rw [readCommand_with_data h (Nat.le_of_not_lt hge)] at hread
  exact judge_ne_incomplete _ _ _ _ _ hread

/-- A reset discards all that there is of one partly arrived command. -/
theorem discardPartial_incomplete {ws : List Word} {ds : List Byte} (hlen : ws.length ≤ 2)
    (h : readCommand ws ds = .incomplete) : discardPartial ws ds = ([], []) := by
  match ws with
  | [] => rfl
  | w0 :: rest =>
    rcases commandWords_cases (opcField w0) with hone | htwo
    · rw [readCommand_one_word hone] at h
      exact absurd h (judge_ne_incomplete _ _ _ _ _)
    · match rest with
      | [] => simp [discardPartial, htwo]
      | [w1] =>
        have hshort : ds.length < commandBytes (opcField w0) w1 := by
          by_contra hge
          rw [readCommand_two_words htwo (Nat.le_of_not_lt hge)] at h
          exact judge_ne_incomplete _ _ _ _ _ h
        simp [discardPartial, htwo, hshort]
      | _ :: _ :: _ => simp at hlen

theorem discardPartial_one_word {w0 : Word} (h : commandWords (opcField w0) = 1) (ws : List Word) (ds : List Byte) :
    discardPartial (w0 :: ws) ds = (w0 :: (discardPartial ws ds).1, (discardPartial ws ds).2) := by
  rw [discardPartial.eq_def]
  simp [h]

/-- A reset keeps a whole command, and goes on behind it. -/
theorem discardPartial_whole {w0 : Word} {tail : List Word} {data : List Byte} (h : WholeCommand w0 tail data)
    (ws : List Word) (ds : List Byte) :
    discardPartial (w0 :: tail ++ ws) (data ++ ds) =
      (w0 :: tail ++ (discardPartial ws ds).1, data ++ (discardPartial ws ds).2) := by
  obtain ⟨hw, hd⟩ := h
  rcases commandWords_cases (opcField w0) with hone | htwo
  · obtain rfl : tail = [] := List.eq_nil_of_length_eq_zero (by omega)
    obtain rfl : data = [] := List.eq_nil_of_length_eq_zero (hd.trans (commandBytes_of_one_word hone _))
    exact discardPartial_one_word hone ws ds
  · obtain ⟨w1, rfl⟩ := List.length_eq_one_iff.mp (show tail.length = 1 by omega)
    rw [List.headD_cons] at hd
    simp [discardPartial, htwo, ← hd]

/-- What a well-formed instruction encodes to is a whole command. -/
theorem exists_wholeCommand_encode {i : Instr} (h : wellFormed i = true) :
    ∃ w0 tail, encodeWords i = w0 :: tail ∧ WholeCommand w0 tail (encodeData i) := by
  obtain ⟨w0, tail, henc, -, hop, -, hlen⟩ := Laws.encodedForm i
  exact ⟨w0, tail, henc, wholeCommand_of_wellFormed h henc hop hlen⟩

/-- A reset keeps the complete commands in front of what it discards (R191). -/
theorem discardPartial_encoded {is : List Instr} (his : ∀ i ∈ is, wellFormed i = true) {pw : List Word}
    {pd : List Byte} (hp : discardPartial pw pd = ([], [])) :
    discardPartial ((is.map encodeWords).flatten ++ pw) ((is.map encodeData).flatten ++ pd) =
      ((is.map encodeWords).flatten, (is.map encodeData).flatten) := by
  induction is with
  | nil => exact hp
  | cons i is ih =>
    obtain ⟨hi, hrest⟩ := List.forall_mem_cons.mp his
    obtain ⟨w0, tail, henc, hwhole⟩ := exists_wholeCommand_encode hi
    simp only [List.map_cons, List.flatten_cons, List.append_assoc, henc]
    rw [discardPartial_whole hwhole, ih hrest]

end Sys2Proof

namespace Sys2Proof.Machine

theorem takeReset_discards {s : State} (hlen : s.cmdIn.length ≤ 2)
    (h : readCommand s.cmdIn s.dataIn = .incomplete) : (takeReset s).cmdIn = [] ∧ (takeReset s).dataIn = [] := by
  simp [discardPartial_incomplete hlen h]

/-- Settles O8: `step_of_incomplete`, which readings are incomplete, and the reset (`takeReset_discards`). -/
theorem incompleteCommandHolds : Obligations.IncompleteCommandHolds := by
  unfold Obligations.IncompleteCommandHolds
  refine ⟨fun _ => step_of_incomplete, fun w0 ds hop => ?firstWord, fun w0 w1 ws ds hop => ?enc,
    fun s hr => ⟨_, step_of_reset hr, takeReset_discards⟩⟩
  case firstWord =>
    simp only [List.mem_cons, List.not_mem_nil, or_false] at hop
    refine readCommand_first_word ?_ ds
    obtain h | h | h := hop <;> rw [opcField, h] <;> rfl
  case enc => exact readCommand_enc_incomplete_iff hop w1 ws ds

/-- Settles O53: what the reset leaves in the channels (`discardPartial_encoded`), and the output it gives to the host. -/
theorem resetDiscardsOnlyThePartialCommand : Obligations.ResetDiscardsOnlyThePartialCommand := by
  unfold Obligations.ResetDiscardsOnlyThePartialCommand
  intro s is pw pd hr his hlen hread hw hd
  have hkept := discardPartial_encoded his (discardPartial_incomplete hlen hread)
  exact ⟨_, step_of_reset hr, by rw [takeReset_cmdIn, hw, hd, hkept], by rw [takeReset_dataIn, hw, hd, hkept],
    takeReset_taken s, takeReset_port s⟩

/-- Settles O52. -/
theorem resetSetsEveryRegister : Obligations.ResetSetsEveryRegister := by
  unfold Obligations.ResetSetsEveryRegister
  exact ⟨fun s hr => ⟨_, step_of_reset hr, takeReset_rst s, takeReset_hostEndian s, rfl, takeReset_discards⟩,
    fun _ => ⟨rfl, rfl, rfl, rfl, rfl, rfl, rfl, rfl⟩⟩

/-- An instruction other than ENC succeeds in a block that is not FAULTED (60_exceptions.md R172, R174). -/
theorem exec_ok_of_not_enc {i : Instr} {s : State} (hi : isEnc i = false) (hf : s.errInv = false) :
    ∃ t v, exec i s = .next t ∧ t.port = s.port ++ [.response ⟨.ok, v⟩] := by
  obtain ⟨hf', -⟩ | ⟨-, -, v, h⟩ | ⟨-, swid, we, -, h⟩ | ⟨-, r, v, t, len, buf, rfl, -⟩ := exec_cases i s
  · simp [hf] at hf'
  · exact ⟨_, v, h, respondOk_port v s⟩
  · exact ⟨_, 0, h, respondOk_port ..⟩
  · simp [isEnc] at hi

theorem e16_zero (swap : Bool) : e16 0 swap = [0, 0] := by
  cases swap <;> rfl

/-- Settles O54: `exec_enc_unconfigured`, `exec_ok_of_not_enc`, and the Start frame of an ENC behind a CFG. -/
theorem bootOrder : Obligations.BootOrder := by
  unfold Obligations.BootOrder
  refine fun s hr => ⟨_, step_of_reset hr, fun i henc => ?enc, fun i henc => exec_ok_of_not_enc henc rfl,
    fun swid we r v t len buf hlen => ?session⟩
  case enc =>
    obtain ⟨t, h, -⟩ := exec_hostEndian i (takeReset s)
    exact ⟨t, h, by rw [exec_enc_unconfigured henc rfl rfl h]; rfl⟩
  case session =>
    exact ⟨_, _, _, _, _, exec_cfg_running swid we rfl, exec_enc_complete r v t hlen rfl rfl, deliverTrain_port ..,
      (frameId_specStart ..).trans (e16_zero _)⟩

theorem conforming_resetFor (host : Endian) : Conforming (State.resetFor host) :=
  ⟨rfl, fun _ => ⟨rfl, rfl, rfl⟩, rfl, by simp [State.resetFor]⟩

/-- Settles O56. -/
theorem resetStateConforms : Obligations.ResetStateConforms := by
  unfold Obligations.ResetStateConforms
  exact ⟨conforming_resetFor, conforming_resetFor Config.hostEndian⟩

end Sys2Proof.Machine
end

section
/-! Ids that come again (70_reset_and_hazards.md R197): an id is a counter modulo 2^16. -/

namespace Sys2Proof.Machine

/-- The frame count of an ENC passes 65536 where its data bytes pass 59 * 65534. -/
theorem frameCount_gt_iff (n : Nat) : 3866506 < n ↔ 65536 < 2 + ceilDiv n 59 := by
  unfold ceilDiv
  omega

theorem eq_of_toNat_65536_apart {x y : Half} {c j : Nat} (hx : x.toNat = (c + j) % 65536)
    (hy : y.toNat = (c + (j + 65536)) % 65536) : x = y :=
  BitVec.eq_of_toNat_eq (by omega)

/-- Settles O42: the ids of a session (O41) and of one train (O34), 65536 apart. -/
theorem longTrainsReuseIds : Obligations.LongTrainsReuseIds := by
  unfold Obligations.LongTrainsReuseIds
  refine ⟨fun swid we is s hf his => ?session, fun r v t len buf s hlen hf hc => ?train⟩
  case session =>
    obtain ⟨t, ht, -, hids⟩ := sessionFramesAreNumberedFromZero swid we is s hf his
    refine ⟨t, ht, fun k f g hk hk' => ?_⟩
    have hid : BitVec.ofNat 16 k = BitVec.ofNat 16 (k + 65536) := BitVec.eq_of_toNat_eq (by simp)
    rw [hids k f hk, hids _ g hk', hid]
  case train =>
    obtain ⟨u, frames, v', hu, hport, hcount, -, -, hids⟩ := encAdvancesSeqByItsFrames r v t len buf s hlen hf hc
    refine ⟨u, frames, v', hu, hport, hcount ▸ frameCount_gt_iff _, fun j f g hj hj' => ?_⟩
    obtain ⟨x, hx, hfx⟩ := hids j f hj
    obtain ⟨y, hy, hgy⟩ := hids _ g hj'
    rw [hfx, hgy, eq_of_toNat_65536_apart hx hy]

end Sys2Proof.Machine
end

section
/-! The output of one command (10_state.md R32, R33): exactly one response, perhaps with a train before it, behind all
earlier output; so no step drops or reorders output (70_reset_and_hazards.md R199), and an issued command is answered
(R200). -/

namespace Sys2Proof.Machine

/-- From `s` to `t` the block presents `n` responses, and loses and reorders no output. -/
def Presents (n : Nat) (s t : State) : Prop :=
  ∃ out, t.taken ++ t.port = s.taken ++ s.port ++ out ∧ (responsesOf out).length = n

theorem presents_zero {s t : State} (h : t.taken ++ t.port = s.taken ++ s.port) : Presents 0 s t :=
  ⟨[], h.trans (List.append_nil _).symm, rfl⟩

theorem presents_trans {m n : Nat} {s t u : State} (hst : Presents m s t) (htu : Presents n t u) :
    Presents (m + n) s u := by
  obtain ⟨as, has, hm⟩ := hst
  obtain ⟨bs, hbs, hn⟩ := htu
  exact ⟨as ++ bs, by rw [hbs, has, List.append_assoc], by rw [responsesOf_append, List.length_append, hm, hn]⟩

/-- The output of one command: its response last, behind what waits already. -/
def AnswersOnce (s t : State) : Prop :=
  t.taken = s.taken ∧ ∃ out r, t.port = s.port ++ out ∧ responsesOf out = [r]

theorem answersOnce_of_response {s t : State} {r : Response} (htaken : t.taken = s.taken)
    (hport : t.port = s.port ++ [.response r]) : AnswersOnce s t :=
  ⟨htaken, _, r, hport, rfl⟩

theorem exec_answersOnce {i : Instr} {s t : State} (h : exec i s = .next t) : AnswersOnce s t := by
  obtain ⟨-, -, rfl⟩ | ⟨-, -, v, rfl⟩ | ⟨-, swid, we, -, rfl⟩ | ⟨-, -, -, rfl⟩ | ⟨-, -, -, train, c, rfl⟩ |
    ⟨-, -, -, rfl⟩ := exec_next_cases h
  · exact answersOnce_of_response rfl rfl
  · exact answersOnce_of_response rfl rfl
  · exact answersOnce_of_response rfl rfl
  · exact answersOnce_of_response rfl rfl
  · exact ⟨rfl, _, _, deliverTrain_port train c s, rfl⟩
  · exact answersOnce_of_response rfl rfl

theorem raiseIllegal_answersOnce (s : State) : AnswersOnce s (raiseIllegal s) := by
  obtain ⟨-, h⟩ | ⟨-, h⟩ := raiseIllegal_cases s
  all_goals exact h ▸ answersOnce_of_response rfl rfl

/-- A command's own words and bytes are consumed, it answers, and the host takes the output or leaves it waiting. -/
theorem presents_of_command {s t : State} (ws : List Word) (ds : List Byte) (h : AnswersOnce (consumeInput ws ds s) t) :
    Presents 1 s (accept t) := by
  obtain ⟨htaken, out, r, hport, hr⟩ := h
  refine ⟨out, ?_, by rw [hr]; rfl⟩
  rw [accept_taken_append_port, htaken, hport, List.append_assoc]
  rfl

theorem step_presents {s t : State} (hr : s.rst = false) (h : step s = .next t) : ∃ n, Presents n s t := by
  obtain ⟨-, rfl⟩ | ⟨-, -, rfl⟩ | ⟨-, why, ws, ds, -, rfl⟩ | ⟨-, i, ws, ds, u, -, he, rfl⟩ := step_next_cases hr h
  · exact ⟨0, presents_zero (accept_taken_append_port s)⟩
  · exact ⟨0, presents_zero rfl⟩
  · exact ⟨1, presents_of_command ws ds (raiseIllegal_answersOnce _)⟩
  · exact ⟨1, presents_of_command ws ds (exec_answersOnce he)⟩

theorem accept_of_not_ready {s : State} (h : s.ready = false) : accept s = s := by
  simp [accept, h]

theorem accept_of_ready {s : State} (h : s.ready = true) : accept s = { s with taken := s.taken ++ s.port, port := [] } := by
  simp [accept, h]

/-- Settles O9: the hold and its end are `accept`, and no step loses output (`step_presents`). -/
theorem outputBackpressureHolds : Obligations.OutputBackpressureHolds := by
  unfold Obligations.OutputBackpressureHolds
  refine ⟨fun s hr hp hready => ?hold, fun s hr hp hready => ?delivered,
    fun s hr => ⟨_, step_of_reset hr, takeReset_port s, takeReset_rst s⟩, fun s t h => ⟨?taken, fun hr => ?kept⟩⟩
  case hold => rw [step_of_waiting_output hr hp, accept_of_not_ready hready]
  case delivered => rw [step_of_waiting_output hr hp, accept_of_ready hready]
  case taken =>
    obtain ⟨more, htaken, -⟩ := deliveredOutputIsNeverRead s t h
    exact ⟨more, htaken⟩
  case kept =>
    obtain ⟨-, more, hout, -⟩ := step_presents hr h
    exact ⟨more, hout⟩

/-- Settles O57: the issued command is read whole, and the host accepts its one response (`exec_answersOnce`). -/
theorem issuedCommandIsAnswered : Obligations.IssuedCommandIsAnswered := by
  unfold Obligations.IssuedCommandIsAnswered
  intro i s hwf hr hp hready hw hd
  have hread : readCommand (issue i s).cmdIn (issue i s).dataIn = .command i [] [] := by
    rw [issue_cmdIn, issue_dataIn, hw, hd, List.nil_append, List.nil_append]
    simpa using readingAnEncodedCommandGivesItBack i [] [] hwf
  obtain ⟨u, he, -⟩ := exec_hostEndian i (consumeInput [] [] (issue i s))
  obtain ⟨hwords, hbytes, -, hready'⟩ := exec_sameInputs he
  obtain ⟨htaken, out, r, hport, hresp⟩ := exec_answersOnce he
  have hu : u.ready = true := hready'.trans hready
  have htaken' : u.taken = s.taken := htaken
  have hport' : u.port = out := by rw [hport, consumeInput_port, issue_port, hp, List.nil_append]
  refine ⟨accept u, r, ?_, ?_⟩
  · rw [step_of_command (s := issue i s) hr hp hread, he, settle]
  · rw [accept_of_ready hu]
    exact ⟨hwords, hbytes, rfl, by rw [htaken', hport', responsesOf_append, hresp]⟩

end Sys2Proof.Machine
end

section
/-! A run of complete commands (70_reset_and_hazards.md R201): each step executes the command at the head of the queue or
waits for the host, so when the host accepts output bears on when the run ends and not on what it delivers; a command
that stays incomplete keeps the run from ending (R198). -/

namespace Sys2Proof.Machine

/-! Whether the host accepts output does not bear on what a command does. -/

theorem unlessFaulted_setReady (b : Bool) {s t t' : State} (h : t' = setReady b t) :
    unlessFaulted (setReady b s) t' = setReady b (unlessFaulted s t) := by
  rw [unlessFaulted, unlessFaulted, setReady_errInv, h]
  cases s.errInv <;> rfl

theorem raise_setReady (b : Bool) (e : ErrorCause) (s : State) : raise e (setReady b s) = setReady b (raise e s) := by
  cases e <;> rfl

theorem raiseIllegal_setReady (b : Bool) (s : State) : raiseIllegal (setReady b s) = setReady b (raiseIllegal s) :=
  unlessFaulted_setReady b (raise_setReady b .illegalCommand s)

theorem encodeBuffer_setReady (b r v t : Bool) (len : Word) (buf : List Byte) (s : State) :
    encodeBuffer r v t len buf (setReady b s) = setReady b (encodeBuffer r v t len buf s) := by
  cases hc : s.cfgd with
  | false => simpa [encodeBuffer, hc] using raise_setReady b .notConfigured s
  | true =>
    cases he : encodeTrain s.swid s.swap s.seq (packFlags r v t) len buf with
    | ok p =>
      simp only [encodeBuffer, setReady_cfgd, setReady_swid, setReady_swap, setReady_seq, hc, he]
      rfl
    | error e => simpa [encodeBuffer, hc, he] using raise_setReady b .invariantFault s

theorem exec_setReady (b : Bool) {i : Instr} {s t : State} (h : exec i s = .next t) :
    exec i (setReady b s) = .next (setReady b t) := by
  cases i with
  | stat =>
    cases h
    rfl
  | enc r v test len buf =>
    cases h
    exact congrArg Host.Outcome.next (unlessFaulted_setReady b (encodeBuffer_setReady ..))
  | _ =>
    cases h
    exact congrArg Host.Outcome.next (unlessFaulted_setReady b rfl)

/-- `s` once a host that accepts output has taken all of it. -/
def delivered (s : State) : State := accept (setReady true s)

theorem setReady_delivered (s : State) : setReady true (delivered s) = delivered s := rfl

theorem delivered_accept (s : State) : delivered (accept s) = delivered s := by
  cases hready : s.ready <;> simp [delivered, accept, setReady, hready]

theorem delivered_of_port_nil {s : State} (hp : s.port = []) : delivered s = setReady true s := by
  simp [delivered, accept, setReady, hp]

/-- What a step does with a command, it does before a host that accepts output, which then has all of it. -/
theorem step_delivered {s t : State} (hr : s.rst = false) (hp : s.port = []) (h : step s = .next t) :
    step (delivered s) = .next (delivered t) := by
  rw [delivered_of_port_nil hp]
  obtain ⟨hp', -⟩ | ⟨-, hc, rfl⟩ | ⟨-, why, ws, ds, hc, rfl⟩ | ⟨-, i, ws, ds, u, hc, he, rfl⟩ := step_next_cases hr h
  · exact absurd hp hp'
  · rw [delivered_of_port_nil hp]
    exact step_of_incomplete (s := setReady true t) hr hp hc
  · rw [step_of_illegal (s := setReady true s) hr hp hc, delivered_accept, delivered, ← raiseIllegal_setReady]
    rfl
  · have he' : exec i (consumeInput ws ds (setReady true s)) = .next (setReady true u) := exec_setReady true he
    rw [step_of_command (s := setReady true s) hr hp hc, he', settle, delivered_accept, delivered]

/-- From `s` to `t` the block executes `n` commands: as many responses, and before a host that accepts output as many
steps, to the same end. -/
structure Executes (n : Nat) (s t : State) : Prop where
  presents : Presents n s t
  prompt : advance (List.replicate n true) (delivered s) = .next (delivered t)

theorem executes_zero {s t : State} (h : delivered t = delivered s) : Executes 0 s t where
  presents := presents_zero (congrArg State.taken h)
  prompt := congrArg Host.Outcome.next h.symm

theorem executes_one {s u : State} {ws : List Word} {ds : List Byte} (hr : s.rst = false) (hp : s.port = [])
    (h : step s = .next (accept u)) (hu : AnswersOnce (consumeInput ws ds s) u) : Executes 1 s (accept u) where
  presents := presents_of_command ws ds hu
  prompt := by
    rw [List.replicate_one, advance_cons (t := delivered (accept u)), advance_nil]
    rw [setReady_delivered, step_delivered hr hp h]

theorem executes_trans {m n : Nat} {s t u : State} (hst : Executes m s t) (htu : Executes n t u) :
    Executes (m + n) s u where
  presents := presents_trans hst.presents htu.presents
  prompt := by rw [List.replicate_add, advance_append hst.prompt, htu.prompt]

theorem executes_of_setReady {n : Nat} {b : Bool} {s t : State} (h : Executes n (setReady b s) t) : Executes n s t :=
  ⟨h.presents, h.prompt⟩

theorem port_ne_nil_of_answersOnce {s t : State} (h : AnswersOnce s t) : t.port ≠ [] := by
  obtain ⟨-, out, r, hport, hout⟩ := h
  intro hnil
  rw [(List.append_eq_nil_iff.mp (hport.symm.trans hnil)).2] at hout
  cases hout

/-- The words and bytes of `tail` make no complete command. -/
def Stalls (tail : List Command) : Prop :=
  readCommand (tail.map Command.words).flatten (tail.map Command.bytes).flatten = .incomplete

/-- With no output waiting, a step executes the complete command at the head of the queue. -/
theorem step_complete {c : Command} {cs : List Command} {s : State} (hc : isComplete c = true)
    (hq : Queued (c :: cs) s) (hp : s.port = []) :
    ∃ u, step s = .next (accept u) ∧ AnswersOnce (withQueue cs s) u ∧ SameInputs (withQueue cs s) u := by
  have hwords : s.cmdIn = c.words ++ (cs.map Command.words).flatten := hq.words
  have hbytes : s.dataIn = c.bytes ++ (cs.map Command.bytes).flatten := hq.bytes
  obtain ⟨i, hread⟩ | ⟨why, hread⟩ := isComplete_read hc
  · obtain ⟨u, hu, -⟩ := exec_hostEndian i (withQueue cs s)
    refine ⟨u, ?_, exec_answersOnce hu, exec_sameInputs hu⟩
    rw [step_of_command hq.rst hp (by rw [hwords, hbytes, hread]), ← withQueue, hu, settle]
  · exact ⟨_, step_of_illegal hq.rst hp (by rw [hwords, hbytes, hread]), raiseIllegal_answersOnce (withQueue cs s),
      raiseIllegal_sameInputs (withQueue cs s)⟩

/-- A step on a queue of complete commands: it executes at most the first, and if the host accepts output one delivery
less is left. -/
theorem step_completeQueue {cs tail : List Command} {s : State} (hcs : ∀ c ∈ cs, isComplete c = true)
    (htail : Stalls tail) (hq : Queued (cs ++ tail) s) :
    ∃ t done rest, step s = .next t ∧ cs = done ++ rest ∧ Queued (rest ++ tail) t ∧
      deliveriesLeft rest t = deliveriesLeft cs s - s.ready.toNat ∧ Executes done.length s t := by
  by_cases hp : s.port = []
  · cases cs with
    | nil =>
      have hread : readCommand s.cmdIn s.dataIn = .incomplete := by rwa [hq.words, hq.bytes]
      exact ⟨s, [], [], step_of_incomplete hq.rst hp hread, rfl, hq, by simp [deliveriesLeft, hp], executes_zero rfl⟩
    | cons c cs =>
      obtain ⟨u, hu, hans, hin⟩ := step_complete (hcs c List.mem_cons_self) hq hp
      have ⟨_, _, _, hready⟩ := hin
      have hready' : u.ready = s.ready := hready
      refine ⟨accept u, [c], cs, hu, rfl, queued_accept (queued_of_sameInputs (queued_withQueue _ hq.rst) hin), ?_,
        executes_one hq.rst hp hu hans⟩
      rw [deliveriesLeft_accept cs (port_ne_nil_of_answersOnce hans), hready', deliveriesLeft, if_pos hp,
        List.length_cons, Nat.add_zero]
  · refine ⟨accept s, [], cs, step_of_waiting_output hq.rst hp, rfl, queued_accept hq, ?_,
      executes_zero (delivered_accept s)⟩
    rw [deliveriesLeft_accept cs hp, deliveriesLeft, if_neg hp]

/-- However the steps in which the host accepts output are spread, each of them delivers the output of one command while
any is left, and a command that stays incomplete stays behind. -/
theorem advance_completeQueue (accepts : List Bool) {cs tail : List Command} {s : State}
    (hcs : ∀ c ∈ cs, isComplete c = true) (htail : Stalls tail) (hq : Queued (cs ++ tail) s) :
    ∃ t done rest, advance accepts s = .next t ∧ cs = done ++ rest ∧ Queued (rest ++ tail) t ∧
      deliveriesLeft rest t = deliveriesLeft cs s - accepts.count true ∧ Executes done.length s t := by
  induction accepts generalizing cs s with
  | nil => exact ⟨s, [], cs, rfl, rfl, hq, rfl, executes_zero rfl⟩
  | cons ready accepts ih =>
    obtain ⟨u, first, rest, hu, rfl, hqu, hless, hfirst⟩ :=
      step_completeQueue (s := setReady ready s) hcs htail ⟨hq.words, hq.bytes, hq.rst⟩
    obtain ⟨t, done, rest, ht, rfl, hqt, hleft, hdone⟩ := ih (fun c hc => hcs c (List.mem_append_right _ hc)) hqu
    refine ⟨t, first ++ done, rest, (advance_cons hu accepts).trans ht, by simp, hqt, ?_, ?_⟩
    · have hsame : deliveriesLeft (first ++ (done ++ rest)) (setReady ready s) =
          deliveriesLeft (first ++ (done ++ rest)) s := rfl
      rw [hleft, hless, hsame, setReady_ready, count_true_cons, Nat.sub_sub, Nat.add_comm ready.toNat]
    · rw [List.length_append]
      exact executes_of_setReady (executes_trans hfirst hdone)

theorem words_ne_nil_of_isComplete {c : Command} (h : isComplete c = true) : c.words ≠ [] := by
  intro hnil
  simp [isComplete, hnil, readCommand] at h

theorem runEnded_eq_true {s : State} : runEnded s = true ↔ s.cmdIn = [] ∧ s.port = [] := by
  simp [runEnded]

/-- A run has ended exactly when no delivery is left. -/
theorem runEnded_iff_deliveriesLeft {cs : List Command} {s : State} (hcs : ∀ c ∈ cs, isComplete c = true)
    (hq : Queued cs s) : runEnded s = true ↔ deliveriesLeft cs s = 0 := by
  have hwords : s.cmdIn = [] ↔ cs = [] := by
    rw [hq.words]
    cases cs with
    | nil => simp
    | cons c cs => simp [words_ne_nil_of_isComplete (hcs c List.mem_cons_self)]
  rw [runEnded_eq_true, hwords]
  by_cases hp : s.port = [] <;> simp [deliveriesLeft, hp]

theorem observeRun_of_not_ended {accepts : List Bool} {cs : List Command} {s t : State}
    (h : advance accepts (issueAll cs s) = .next t) (he : runEnded t ≠ true) : observeRun accepts cs s = none := by
  simp [observeRun, h, he]

/-- The observation of an ended run does not see whether the host goes on accepting output. -/
theorem observation_delivered (s : State) {t : State} (h : runEnded t = true) :
    observation s (delivered t) = observation s t := by
  rw [delivered_of_port_nil (runEnded_port h)]
  rfl

theorem queued_issueAll (cs : List Command) {s : State} (hr : s.rst = false) (hw : s.cmdIn = []) (hd : s.dataIn = []) :
    Queued cs (issueAll cs s) :=
  ⟨by rw [issueAll_cmdIn, hw, List.nil_append], by rw [issueAll_dataIn, hd, List.nil_append], hr⟩

/-- A run of complete commands that has had enough steps in which the host accepts output has executed all of them. -/
theorem advance_ends {accepts : List Bool} {cs : List Command} {s : State} (hcs : ∀ c ∈ cs, isComplete c = true)
    (hq : Queued cs s) (hleft : deliveriesLeft cs s ≤ accepts.count true) :
    ∃ t, advance accepts s = .next t ∧ runEnded t = true ∧ Executes cs.length s t := by
  obtain ⟨t, done, rest, ht, rfl, hqt, hnone, hexec⟩ :=
    advance_completeQueue accepts hcs (tail := []) rfl (by rwa [List.append_nil])
  rw [List.append_nil] at hqt
  rw [Nat.sub_eq_zero_of_le hleft] at hnone
  have hended := (runEnded_iff_deliveriesLeft (fun c hc => hcs c (List.mem_append_right _ hc)) hqt).mpr hnone
  obtain rfl : rest = [] := List.eq_nil_of_length_eq_zero (Nat.eq_zero_of_add_eq_zero_right hnone)
  exact ⟨t, ht, hended, by rwa [List.append_nil]⟩

/-- One response for each command, in the observation of a run that started with no output waiting. -/
theorem length_responses_observation {n : Nat} {cs : List Command} {s t : State} (h : Presents n (issueAll cs s) t)
    (hp : s.port = []) (he : runEnded t = true) : (observation s t).responses.length = n := by
  obtain ⟨out, hout, hn⟩ := h
  rw [runEnded_port he, issueAll_port, issueAll_taken, hp, List.append_nil, List.append_nil] at hout
  rw [observation, outputOfRun, hout, hp, List.length_nil, Nat.add_zero, List.drop_left, hn]

/-- Settles O58: `advance_completeQueue` counts the deliveries that are left; two runs that have ended have executed the
same commands to the same end (`Executes.prompt`). -/
theorem runsEndWithOneObservation : Obligations.RunsEndWithOneObservation := by
  unfold Obligations.RunsEndWithOneObservation
  refine ⟨fun cs accepts s hcs hr hp hw hd => ?ends, fun cs c accepts s hcs hr hp hw hd hne hread => ?stalls⟩
  case ends =>
    have hq := queued_issueAll cs hr hw hd
    have hall : deliveriesLeft cs (issueAll cs s) = cs.length := by simp [deliveriesLeft, hp]
    split_ifs with hcount
    · obtain ⟨t, done, rest, ht, rfl, hqt, hleft, -⟩ :=
        advance_completeQueue accepts hcs (tail := []) rfl (by rwa [List.append_nil])
      rw [List.append_nil] at hqt
      refine observeRun_of_not_ended ht fun hended => ?_
      have := (runEnded_iff_deliveriesLeft (fun c hc => hcs c (List.mem_append_right _ hc)) hqt).mp hended
      omega
    · obtain ⟨t, ht, hended, hexec⟩ := advance_ends hcs hq (hall.trans_le (Nat.le_of_not_lt hcount))
      obtain ⟨t', ht', hended', hexec'⟩ :=
        advance_ends (accepts := List.replicate cs.length true) hcs hq (by simp [hall])
      have hsame : delivered t = delivered t' := Host.Outcome.next.inj (hexec.prompt.symm.trans hexec'.prompt)
      refine ⟨observation s t, observeRun_eq_some.mpr ⟨t, ht, hended, rfl⟩,
        observeRun_eq_some.mpr ⟨t', ht', hended', ?_⟩, length_responses_observation hexec.presents hp hended⟩
      rw [← observation_delivered s hended, hsame, observation_delivered s hended']
  case stalls =>
    have htail : Stalls [c] := by simpa [Stalls] using hread
    obtain ⟨t, done, rest, ht, -, hqt, -⟩ :=
      advance_completeQueue accepts hcs htail (queued_issueAll (cs ++ [c]) hr hw hd)
    refine observeRun_of_not_ended ht fun hended => hne ?_
    have hnil := hqt.words.symm.trans (runEnded_eq_true.mp hended).1
    simp only [List.map_append, List.flatten_append, List.map_cons, List.map_nil, List.flatten_cons, List.flatten_nil,
      List.append_nil, List.append_eq_nil_iff] at hnil
    exact hnil.2

end Sys2Proof.Machine
end
